-- ==== Sys2Proof/Word.lean ====
section
/-!
DEFINITION. The two data types everything else is made of: the byte and the pixel
(00_scope.md R7 `CHAN_W`, `CHANNELS`, R11; 10_state.md R13).
-/

namespace Sys2Proof

/-- An unsigned 8-bit value: a byte of the input span, or one channel of a pixel (R7, R13). -/
abbrev Byte := BitVec 8

/-- The number of a slot of the pixel cache: 6 bits, 0..63 (R16, R34). -/
abbrev CacheIndex := BitVec 6

/-- An index outside 0..63 is impossible by construction (R34, R91). -/
theorem cacheIndex_lt (i : CacheIndex) : i.toNat < 64 := i.isLt

/-- A pixel: four unsigned 8-bit channels, a value that is copied and never referenced (R11, R13). -/
structure Pixel where
  r : Byte
  g : Byte
  b : Byte
  a : Byte
  deriving DecidableEq, Repr

end Sys2Proof
end

