-- ==== Sys2Proof/Machine/State.lean ====
section
/-!
DEFINITION. The state of the block as plain data (10_state.md R30), its value at reset (R29), and the
reasons a step can stop.
-/

namespace Sys2Proof.Machine

/-- The run status (R22). -/
inductive Phase where
  /-- The decoder has a next step. -/
  | running
  /-- The cursor reached N at a chunk boundary with no error. Final. -/
  | done
  /-- The decode aborted. Final. -/
  | error
  deriving DecidableEq, Repr

/-- The error that put `phase` at `error` (R23, R89). -/
inductive ErrKind where
  /-- No error. -/
  | none
  /-- A chunk requires more bytes than remain in the input span. -/
  | truncated
  /-- Reserved for an unclassifiable tag byte; no rule raises it (R90). -/
  | badTag
  deriving DecidableEq, Repr

/-- The input span: N bytes at the addresses 0 to N-1 (20_memory.md R31). `size` is N. `cells` lists
bytes by address in one canonical form (`Memory.wf`): addresses strictly rising, each below N, and no
byte equal to `Memory.unlisted`, which an address below N that is not listed reads as (log 1, 2). -/
structure Memory where
  size : Nat
  cells : List Host.Cell
  deriving DecidableEq, Repr

/-- What an address below N that no cell lists reads as (log 2). -/
def Memory.unlisted : Byte := 0x00

/-- The empty span, N = 0. -/
def Memory.empty : Memory := { size := 0, cells := [] }

/-- The whole state (R30), with the span and its length, the parameters of a decode, beside it
(R26; log 1). -/
structure State where
  /-- The current-pixel register (R13). -/
  px : Pixel
  /-- The pixel cache: 64 slots, direct-mapped (R16). -/
  cache : Vector Pixel 64
  /-- The decode cursor, a byte offset into the span (R21). -/
  cursor : Nat
  /-- The run status (R22). -/
  phase : Phase
  /-- The error kind (R23). -/
  errKind : ErrKind
  /-- The pixels the sink has received, oldest first (R25). -/
  out : List Pixel
  /-- The input span `data` and its length N (R26, R31). -/
  data : Memory
  deriving DecidableEq, Repr

/-- Why the machine stops. A truncated chunk is none of these: the spec describes that error's entry,
and the step takes it (R93). -/
inductive Fault where
  /-- Raised by `step` when `phase` is `done`: the block has no step there (R64). Safe (log 4). -/
  | noStepInDone
  /-- Raised by `step` when `phase` is `error`: the block has no step there (R64). Safe (log 4). -/
  | noStepInError
  /-- Raised by `step` when the tag byte would be read at an address that does not exist, which needs
  a cursor beyond N; no run reaches one (R21, R31). Safe (log 11). -/
  | outsideSpan (addr : Nat)
  deriving DecidableEq, Repr

/-- Why an instruction has no meaning. -/
inductive Refusal where
  /-- Raised by an arm of `exec` whose instruction is not modelled; no arm is left so. Safe. -/
  | notModelled (mnemonic : String)
  deriving DecidableEq, Repr

/-- The pixel `px` holds after reset: (0, 0, 0, 255) (R29). -/
def State.resetPixel : Pixel := { r := 0, g := 0, b := 0, a := 255 }

/-- The pixel every cache slot holds after reset: (0, 0, 0, 0) (R29). -/
def State.zeroPixel : Pixel := { r := 0, g := 0, b := 0, a := 0 }

/-- The machine after `reset(data, N)` on the empty span (R29, R101). A span to decode is bound by
`State.resetOn` (log 3). -/
def State.reset : State :=
  { px := State.resetPixel
    cache := Vector.replicate 64 State.zeroPixel
    cursor := 0
    phase := .running
    errKind := .none
    out := []
    data := Memory.empty }

end Sys2Proof.Machine
end

