-- ==== Sys2Proof/Machine/Memory.lean ====
section
/-!
DEFINITION. The named operations over the input span: the block's one-byte read (20_memory.md R31),
the host's placing of bytes at reset (R35), and the canonical form of the list of cells. The block
itself has no write (R33).
-/

namespace Sys2Proof.Machine

/-- The byte a list of cells holds at an address. -/
def Memory.lookup : List Host.Cell → Nat → Byte
  | [], _ => Memory.unlisted
  | (a, b) :: rest, x => if a = x then b else Memory.lookup rest x

/-- `MemRead(addr, 1)`: `data[addr]` for addr < N; no other address exists (R31). -/
def Memory.read (m : Memory) (addr : Nat) : Option Byte :=
  if addr < m.size then some (Memory.lookup m.cells addr) else none

/-- The bytes at addr, addr+1, ..., at most n of them and none past the span. -/
def Memory.bytesFrom (m : Memory) (addr : Nat) : Nat → List Byte
  | 0 => []
  | n + 1 =>
    match m.read addr with
    | none => []
    | some b => b :: Memory.bytesFrom m (addr + 1) n

/-- A list of cells with the byte at one address replaced, in canonical form again. -/
def Memory.putCell (addr : Nat) (v : Byte) : List Host.Cell → List Host.Cell
  | [] => if v = Memory.unlisted then [] else [(addr, v)]
  | (a, b) :: rest =>
    if addr < a then
      if v = Memory.unlisted then (a, b) :: rest else (addr, v) :: (a, b) :: rest
    else if addr = a then
      if v = Memory.unlisted then rest else (addr, v) :: rest
    else (a, b) :: Memory.putCell addr v rest

/-- The HOST places one byte of the span it will bind; the span grows to hold it. No step of the
block does this (R33). -/
def Memory.place (m : Memory) (addr : Nat) (v : Byte) : Memory :=
  { size := max m.size (addr + 1), cells := Memory.putCell addr v m.cells }

/-- The host places a sequence of bytes at rising addresses. -/
def Memory.placeBytes (m : Memory) (addr : Nat) : List Byte → Memory
  | [] => m
  | b :: rest => Memory.placeBytes (m.place addr b) (addr + 1) rest

/-- The span that holds exactly these bytes, the first at address 0 (R31). -/
def Memory.ofBytes (bytes : List Byte) : Memory := Memory.placeBytes Memory.empty 0 bytes

/-- The cells are at strictly rising addresses from lo on, each below size, none the unlisted byte. -/
def Memory.cellsWf (size lo : Nat) : List Host.Cell → Bool
  | [] => true
  | (a, b) :: rest =>
    decide (lo ≤ a) && decide (a < size) && decide (b ≠ Memory.unlisted) &&
      Memory.cellsWf size (a + 1) rest

/-- The canonical form: two spans in it that read the same are equal data. -/
def Memory.wf (m : Memory) : Bool := Memory.cellsWf m.size 0 m.cells

end Sys2Proof.Machine
end

