-- ==== Sys2Proof/Machine/Operands.lean ====
section
/-!
DEFINITION. What the rules compute from operands: the modular channel arithmetic of the delta chunks
(43_delta.md R84, R85), the cache index of a pixel (10_state.md R18) and the packing of a pixel into
a 32-bit word at a port (20_memory.md R39).
-/

namespace Sys2Proof.Machine

/-- `wrap8(v)`: v mod 256, the non-negative remainder (00_scope.md R9). -/
def wrap8 (v : Int) : Byte := BitVec.ofInt 8 v

/-- One channel plus a signed delta: the sum is taken in the integers and then reduced (R84). -/
def addDelta (old : Byte) (delta : Int) : Byte := wrap8 ((old.toNat : Int) + delta)

/-- The three colour lanes each plus its own delta; alpha passes through (R85). -/
def withDeltas (p : Pixel) (dr dg db : Int) : Pixel :=
  { r := addDelta p.r dr, g := addDelta p.g dg, b := addDelta p.b db, a := p.a }

/-- The colour channels replaced, alpha kept (41_literals.md R80). -/
def withColour (p : Pixel) (r g b : Byte) : Pixel := { r := r, g := g, b := b, a := p.a }

/-- `hash(p) = (3*p.r + 5*p.g + 7*p.b + 11*p.a) mod 64`, the slot a pixel is stored at (R18). -/
def pixelHash (p : Pixel) : CacheIndex :=
  BitVec.ofNat 6 (3 * p.r.toNat + 5 * p.g.toNat + 7 * p.b.toNat + 11 * p.a.toNat)

/-- `PIXEL_PACK`: r is bits 7..0, g 15..8, b 23..16, a 31..24 (R39; log 16). Only a port uses it. -/
def packPixel (p : Pixel) : BitVec 32 := p.a ++ p.b ++ p.g ++ p.r

/-- The pixel a packed word carries (R39). -/
def unpackPixel (w : BitVec 32) : Pixel :=
  { r := w.extractLsb' 0 8, g := w.extractLsb' 8 8, b := w.extractLsb' 16 8, a := w.extractLsb' 24 8 }

end Sys2Proof.Machine
end

