-- ==== Sys2Proof/Machine/Ops.lean ====
section
/-!
DEFINITION. The named operations over the state (00_scope.md R10): the current pixel, the cache, the
sink, the common epilogue, the cursor advance, the end of a decode, taking the truncation error, and
the host's reset. Every meaning is made of these.
-/

namespace Sys2Proof.Machine

/-- `px <- p` (R10). -/
def State.setPx (s : State) (p : Pixel) : State := { s with px := p }

/-- `cache[i]`: the read of one slot, whole (R16, R34). -/
def State.cacheRead (s : State) (i : CacheIndex) : Pixel := s.cache[i.toNat]'(cacheIndex_lt i)

/-- `cache[i] <- p`: the write of one slot, whole; a collision overwrites silently (R16, R34). -/
def State.cacheWrite (s : State) (i : CacheIndex) (p : Pixel) : State :=
  { s with cache := s.cache.set i.toNat p (cacheIndex_lt i) }

/-- `emit(p)`: append one pixel to what the sink has received; it always succeeds (R36; log 7). -/
def State.emit (s : State) (p : Pixel) : State := { s with out := s.out ++ [p] }

/-- `repeat k times: emit(p)` (R86). -/
def State.emitCopies (s : State) (k : Nat) (p : Pixel) : State :=
  { s with out := s.out ++ List.replicate k p }

/-- The common epilogue: store `px` at its hash, then emit it; both use `px` after the chunk's
effect (R70). -/
def State.epilogue (s : State) : State := (s.cacheWrite (pixelHash s.px) s.px).emit s.px

/-- `cursor <- cursor + len`, exactly the chunk's length (R71). -/
def State.advance (s : State) (len : Nat) : State := { s with cursor := s.cursor + len }

/-- What follows every chunk's effect: the epilogue, once, and the cursor advance (R70, R71). -/
def State.finishChunk (s : State) (len : Nat) : State := s.epilogue.advance len

/-- Error entry: `phase <- ERROR` and `err_kind`, and nothing else; there is no handler, no saved
context and no return (60_exceptions.md R88, R94, R95). -/
def State.takeError (s : State) (k : ErrKind) : State := { s with phase := .error, errKind := k }

/-- `raise Truncated`: px, cache, cursor and out stay as they were (R93; log 5). -/
def State.raiseTruncated (s : State) : State := s.takeError .truncated

/-- The end of a decode: `phase <- DONE` and nothing else (R65). -/
def State.endDecode (s : State) : State := { s with phase := .done }

/-- The bounds check a chunk of len bytes makes before any effect: a chunk that does not fit raises
`Truncated`, one that fits goes on with its effect (R68). -/
def State.boundsChecked (s : State) (len : Nat) (next : State) : Host.Outcome State Fault Refusal :=
  if s.data.size < s.cursor + len then .next s.raiseTruncated else .next next

/-- `reset(data, N)`: bind the span and set every piece of state to its reset value. It reads no
earlier state, so it is the same in every phase and nothing survives it (70_reset_and_hazards.md
R101, R102; log 9). -/
def State.resetOn (span : Memory) : State := { State.reset with data := span }

/-- The machine launched at its cursor with these bytes standing there: the span holds them (and
grows to), and `phase` and `err_kind` are those of a running decode (log 14). -/
def State.placeAtCursor (s : State) (bytes : List Byte) : State :=
  { s with data := s.data.placeBytes s.cursor bytes, phase := .running, errKind := .none }

end Sys2Proof.Machine
end

