-- ==== Sys2Proof/Machine/Delta.lean ====
section
/-!
DEFINITION. The delta chunks, DIFF and LUMA (43_delta.md R82 to R85).
-/

namespace Sys2Proof.Machine

/-- DIFF: each colour channel plus its delta, modulo 256; alpha kept; raises nothing (R82; log 10). -/
def execDiff (dr dg db : Int) (s : State) : Host.Outcome State Fault Refusal :=
  .next ((s.setPx (withDeltas s.px dr dg db)).finishChunk 1)

/-- LUMA: green plus dg; red and blue plus dg and their own offset; modulo 256; alpha kept; truncated
when the tag is the last byte of the span (R83). -/
def execLuma (dg drDg dbDg : Int) (s : State) : Host.Outcome State Fault Refusal :=
  s.boundsChecked 2 ((s.setPx (withDeltas s.px (drDg + dg) dg (dbDg + dg))).finishChunk 2)

end Sys2Proof.Machine
end

