-- ==== Sys2Proof/Machine/Literals.lean ====
section
/-!
DEFINITION. The literal chunks, RGBA and RGB (41_literals.md R79, R80).
-/

namespace Sys2Proof.Machine

/-- RGBA: all four channels replaced by the operand bytes; truncated when fewer than 5 bytes remain
(R79). -/
def execRgba (r g b a : Byte) (s : State) : Host.Outcome State Fault Refusal :=
  s.boundsChecked 5 ((s.setPx { r := r, g := g, b := b, a := a }).finishChunk 5)

/-- RGB: the colour channels replaced, alpha kept; truncated when fewer than 4 bytes remain (R80). -/
def execRgb (r g b : Byte) (s : State) : Host.Outcome State Fault Refusal :=
  s.boundsChecked 4 ((s.setPx (withColour s.px r g b)).finishChunk 4)

end Sys2Proof.Machine
end

