-- ==== Sys2Proof/Machine/Lookup.lean ====
section
/-!
DEFINITION. The cache lookup chunk, INDEX (42_index.md R81).
-/

namespace Sys2Proof.Machine

/-- INDEX: the whole slot is copied to `px`, alpha included. It is one byte, so it has no bounds
check of its own and raises nothing (R81; log 10). -/
def execIndex (i : CacheIndex) (s : State) : Host.Outcome State Fault Refusal :=
  .next ((s.setPx (s.cacheRead i)).finishChunk 1)

end Sys2Proof.Machine
end

