-- ==== Sys2Proof/Machine/Run.lean ====
section
/-!
DEFINITION. The run chunk, RUN (44_run.md R86, R87).
-/

namespace Sys2Proof.Machine

/-- RUN: k copies of the current pixel with no cache write, then the epilogue, which stores it once
and emits copy k+1; `px` is not changed; raises nothing (R86, R87; log 10). -/
def execRun (k : Nat) (s : State) : Host.Outcome State Fault Refusal :=
  .next ((s.emitCopies k s.px).finishChunk 1)

end Sys2Proof.Machine
end

