-- ==== Sys2Proof/Config.lean ====
section
/-!
DEFINITION. The block's parameters (00_scope.md R7). The channel count, the channel width and the
number of cache slots are in the types (`Pixel`, `Byte`, `Vector Pixel 64`); the rest is here.
-/

namespace Sys2Proof.Config

/-- `MAX_CHUNK_LEN`: the longest chunk, RGBA, has 5 bytes (R7, R48). -/
def maxChunkLen : Nat := 5

/-- The largest field of a RUN chunk: k is 0..61, so a chunk emits at most `MAX_RUN` = 62 pixels
(R7, R53; 90_conflicts.md C1). -/
def maxRunField : Nat := 61

/-- `CURSOR_W`, the width of a real cursor, which the spec leaves OPEN (R7, R21; D3): a constant with
no body, so nothing can be proved of its value. No step reads it; it stands in the launch premise
`N < 2 ^ CURSOR_W` (Safety). Log 6. -/
opaque cursorW : Nat

end Sys2Proof.Config
end

