-- ==== Sys2Proof/Syntax.lean ====
section
/-!
DEFINITION. The chunk kinds and the chunks themselves: one constructor per row of
spec/opcode_table.json (00_scope.md R2; 30_encoding.md R48, R61).
-/

namespace Sys2Proof

/-- The six chunk kinds (R2, R48). -/
inductive Kind where
  | rgba
  | rgb
  | index
  | diff
  | luma
  | run
  deriving DecidableEq, Repr

/-- A chunk with its operands assembled: the block's instruction (R12, R61). Deltas are the signed
integers of the rules, their bias already taken off (log 13). -/
inductive Instr where
  /-- `RGBA r, g, b, a`: four bytes used verbatim (R55, R79). -/
  | rgba (r g b a : Byte)
  /-- `RGB r, g, b`: three bytes used verbatim (R54, R80). -/
  | rgb (r g b : Byte)
  /-- `INDEX i`: a cache slot number, 0..63 (R50, R81). -/
  | index (i : CacheIndex)
  /-- `DIFF dr, dg, db`: three signed deltas, each -2..1 (R51, R82). -/
  | diff (dr dg db : Int)
  /-- `LUMA dg, dr_dg, db_dg`: the green delta -32..31 and the red and blue offsets from it, each
  -8..7 (R52, R83). -/
  | luma (dg drDg dbDg : Int)
  /-- `RUN k+1`: the encoded field k, 0..61; the chunk emits k+1 pixels (R53, R86). The syntax of
  R61 writes the count k+1; the constructor holds k, the operand R86 computes with (log 13). -/
  | run (k : Nat)
  deriving DecidableEq, Repr

/-- The kind of a chunk. -/
def Instr.kind : Instr → Kind
  | .rgba _ _ _ _ => .rgba
  | .rgb _ _ _ => .rgb
  | .index _ => .index
  | .diff _ _ _ => .diff
  | .luma _ _ _ => .luma
  | .run _ => .run

end Sys2Proof
end

