-- ==== Sys2Proof/Machine/Dispatch.lean ====
section
/-!
DEFINITION. The dispatch to the six kinds: exactly one effect applies, and there is no default arm
(40_chunk_cycle.md R69).
-/

namespace Sys2Proof.Machine

def exec (i : Instr) (s : State) : Host.Outcome State Fault Refusal :=
  match i with
  | .rgba r g b a => Sys2Proof.Machine.execRgba r g b a s
  | .rgb r g b => Sys2Proof.Machine.execRgb r g b s
  | .index slot => Sys2Proof.Machine.execIndex slot s
  | .diff dr dg db => Sys2Proof.Machine.execDiff dr dg db s
  | .luma dg drDg dbDg => Sys2Proof.Machine.execLuma dg drDg dbDg s
  | .run k => Sys2Proof.Machine.execRun k s

end Sys2Proof.Machine
end

