-- ==== Sys2Proof/WellFormed.lean ====
section
/-!
DEFINITION. The operand ranges a chunk can spell (30_encoding.md R50 to R55, R61: "An operand
outside its range is an assembly error").
-/

namespace Sys2Proof

/-- `lo ≤ x ≤ hi`, as a Bool. -/
def inRange (lo hi x : Int) : Bool := decide (lo ≤ x ∧ x ≤ hi)

/-- Every operand is in the range of R61. The operands of RGBA, RGB and INDEX are in range by their
types: every byte (R57) and every 6-bit index (R34) is legal. -/
def Instr.wf : Instr → Bool
  | .rgba _ _ _ _ => true
  | .rgb _ _ _ => true
  | .index _ => true
  | .diff dr dg db => inRange (-2) 1 dr && inRange (-2) 1 dg && inRange (-2) 1 db
  | .luma dg drDg dbDg => inRange (-32) 31 dg && inRange (-8) 7 drDg && inRange (-8) 7 dbDg
  | .run k => decide (k ≤ Config.maxRunField)

end Sys2Proof
end

