-- ==== Sys2Proof/Decode.lean ====
section
/-!
DEFINITION. The decoder and the encoder of chunks (30_encoding.md): classification of the tag byte,
lengths, field extraction with its biases, and the same tables read the other way.
-/

namespace Sys2Proof

/-- `v[hi:lo]`: the unsigned field of bits hi down to lo of a byte (00_scope.md R8). -/
def bits (v : Byte) (hi lo : Nat) : Nat := v.toNat / 2 ^ lo % 2 ^ (hi + 1 - lo)

/-- A biased field read as a signed integer: the bias is subtracted, it is not two's complement
(R51, R52). -/
def unbias (bias : Int) (f : Nat) : Int := (f : Int) - bias

/-- The kind a tag byte spells, "most-specific first": the two exact values, then the top two bits
(R49). There is no failing case (R56, R57). -/
def tagKind (tag : Byte) : Kind :=
  if tag = 0xFF then .rgba
  else if tag = 0xFE then .rgb
  else if bits tag 7 6 = 0 then .index
  else if bits tag 7 6 = 1 then .diff
  else if bits tag 7 6 = 2 then .luma
  else .run

/-- The length in bytes of a chunk of a kind, its tag byte counted (R48). -/
def kindLength : Kind → Nat
  | .rgba => 5
  | .rgb => 4
  | .index => 1
  | .diff => 1
  | .luma => 2
  | .run => 1

/-- The length of the chunk a tag byte starts: the tag alone decides it (R58, R67). -/
def chunkLength (tag : Byte) : Nat := kindLength (tagKind tag)

/-- Why a sequence of bytes is no chunk. There is no third reason: every tag is legal (R57). -/
inductive DecodeError where
  /-- No byte is left, so there is no tag byte. -/
  | noTag
  /-- The chunk whose tag this is needs more bytes than are there (R68). -/
  | truncated (tag : Byte)
  deriving DecidableEq, Repr

/-- INDEX: `index = tag[5:0]` (R50). -/
def decodeIndex (tag : Byte) : Instr := .index (BitVec.ofNat 6 (bits tag 5 0))

/-- DIFF: three 2-bit fields, each with bias 2 (R51). -/
def decodeDiff (tag : Byte) : Instr :=
  .diff (unbias 2 (bits tag 5 4)) (unbias 2 (bits tag 3 2)) (unbias 2 (bits tag 1 0))

/-- LUMA: the tag's 6-bit field with bias 32, the second byte's nibbles with bias 8 (R52). -/
def decodeLuma (tag nb : Byte) : Instr :=
  .luma (unbias 32 (bits tag 5 0)) (unbias 8 (bits nb 7 4)) (unbias 8 (bits nb 3 0))

/-- RUN: `k = tag[5:0]` (R53). -/
def decodeRun (tag : Byte) : Instr := .run (bits tag 5 0)

/-- A chunk of a known kind from its tag byte and the bytes that follow, with the bytes left over.
Operand bytes are taken verbatim, in rising address order, and never classified (R37, R59). -/
def decodeAs (tag : Byte) : Kind → List Byte → Except DecodeError (Instr × List Byte)
  | .rgba, r :: g :: b :: a :: tl => .ok (.rgba r g b a, tl)
  | .rgba, _ => .error (.truncated tag)
  | .rgb, r :: g :: b :: tl => .ok (.rgb r g b, tl)
  | .rgb, _ => .error (.truncated tag)
  | .index, tl => .ok (decodeIndex tag, tl)
  | .diff, tl => .ok (decodeDiff tag, tl)
  | .luma, nb :: tl => .ok (decodeLuma tag nb, tl)
  | .luma, [] => .error (.truncated tag)
  | .run, tl => .ok (decodeRun tag, tl)

/-- The chunk at the head of a sequence of bytes, and the bytes after it. Total; it refuses, by name,
only where bytes are missing (R57, R68). -/
def decode : List Byte → Except DecodeError (Instr × List Byte)
  | [] => .error .noTag
  | tag :: rest => decodeAs tag (tagKind tag) rest

/-- A signed delta as its biased field of w bits: `(x + bias)[w-1:0]` (R61). -/
def biased (w : Nat) (bias x : Int) : BitVec w := BitVec.ofInt w (x + bias)

/-- The bytes a chunk assembles to (R61), written from the same formats R50 to R55. -/
def encode : Instr → List Byte
  | .rgba r g b a => [0xFF, r, g, b, a]
  | .rgb r g b => [0xFE, r, g, b]
  | .index i => [0b00#2 ++ i]
  | .diff dr dg db => [0b01#2 ++ biased 2 2 dr ++ biased 2 2 dg ++ biased 2 2 db]
  | .luma dg drDg dbDg => [0b10#2 ++ biased 6 32 dg, biased 4 8 drDg ++ biased 4 8 dbDg]
  | .run k => [0b11#2 ++ BitVec.ofNat 6 k]

/-- The n lowest bytes of a number, the least significant first. -/
def lowBytes : Nat → Nat → List Byte
  | 0, _ => []
  | n + 1, w => BitVec.ofNat 8 w :: lowBytes n (w / 256)

/-- The bytes of an instruction numbered as spec/opcode_table.json numbers them: the first byte (the
tag) is bits 7..0, the next bits 15..8 and so on; the bits above nbits are 0, up to the longest
chunk. -/
def tableBytes (nbits w : Nat) : List Byte := lowBytes Config.maxChunkLen (w % 2 ^ nbits)

/-- The instruction `decode` reads from an instruction numbered as the opcode table numbers it. -/
def decodeTableWord (nbits w : Nat) : Option Instr :=
  match decode (tableBytes nbits w) with
  | .ok (i, _) => some i
  | .error _ => none

end Sys2Proof
end

