-- ==== Sys2Proof/Machine/Fetch.lean ====
section
/-!
DEFINITION. What a step does before a chunk's effect, in the order of 60_exceptions.md R92: the phase
(R64), the termination test (R65), the fetch and classification (R66), the bounds check (R68).
-/

namespace Sys2Proof.Machine

/-- Either the chunk to execute, or the outcome of a step that executes none. The bytes fetched are
those from the cursor on that the span has, at most the longest chunk, so `decode` misses an operand
byte exactly when `cursor + L > N` (R67, R68). -/
def fetchChunk (s : State) : Host.Outcome State Fault Refusal ⊕ Instr :=
  match s.phase with
  | .done => .inl (.fault .noStepInDone)
  | .error => .inl (.fault .noStepInError)
  | .running =>
    if s.cursor = s.data.size then .inl (.next s.endDecode)
    else
      match decode (s.data.bytesFrom s.cursor Config.maxChunkLen) with
      | .ok (i, _) => .inr i
      | .error (.truncated _) => .inl (.next s.raiseTruncated)
      | .error .noTag => .inl (.fault (.outsideSpan s.cursor))

end Sys2Proof.Machine
end

