-- ==== Sys2Proof/Machine/Step.lean ====
section
/-!
DEFINITION. The architectural step: one chunk (40_chunk_cycle.md R63, R72).
-/

namespace Sys2Proof.Machine

/-- One step: the checks before a chunk's effect, then the chunk (R72). -/
def step (s : State) : Host.Outcome State Fault Refusal :=
  match fetchChunk s with
  | .inl outcome => outcome
  | .inr i => exec i s

/-- The state with an instruction, numbered as the opcode table numbers it, standing at the cursor of
a running decode (log 14). -/
def State.withFetchWord (s : State) (nbits w : Nat) : State :=
  s.placeAtCursor (tableBytes nbits w)

end Sys2Proof.Machine
end

