-- ==== Sys2Proof/Machine/Flags.lean ====
section
/-!
DEFINITION. The block has no flags and no condition codes (10_state.md R24), so no flag computation
stands here; this file holds the read-only status outputs the host sees (R28) and the observation of
a decode (R25; 92_eei_decisions.md D19).
-/

namespace Sys2Proof.Machine

/-- The 2-bit code of `phase`; 0b00 is not used (R22). -/
def phaseCode : Phase → BitVec 2
  | .running => 0b01
  | .done => 0b10
  | .error => 0b11

/-- The 2-bit code of `err_kind`; 3 is unused (R23, R89). -/
def errCode : ErrKind → BitVec 2
  | .none => 0
  | .truncated => 1
  | .badTag => 2

/-- What the host sees at the status port: `phase`, `err_kind` and `cursor`, each read-only (R28). -/
def State.statusPort (s : State) : BitVec 2 × BitVec 2 × Nat :=
  (phaseCode s.phase, errCode s.errKind, s.cursor)

/-- The observation of a decode: (out, phase, err_kind, cursor) (R25, D19). `px` and `cache` are not
in it: the host cannot see them (D16). -/
structure Observation where
  out : List Pixel
  phase : Phase
  errKind : ErrKind
  cursor : Nat
  deriving DecidableEq, Repr

/-- What can be observed of a state. -/
def State.observe (s : State) : Observation :=
  { out := s.out, phase := s.phase, errKind := s.errKind, cursor := s.cursor }

end Sys2Proof.Machine
end

