-- ==== Sys2Proof/Safety.lean ====
section
/-!
DEFINITION. What a decode that keeps the spec's promises looks like at a chunk boundary: the
invariants of 10_state.md as predicates on a state, the launch premise, and the end of a decode.
-/

namespace Sys2Proof.Machine

/-- The decode has ended: `phase` is `done` or `error` (92_eei_decisions.md D19). -/
def State.ended (s : State) : Prop := s.phase ≠ .running

/-- `err_kind = NONE` exactly when `phase != ERROR` (R23), and `BAD_TAG` is unreachable (R90). -/
def State.StatusInv (s : State) : Prop :=
  (s.errKind = .none ↔ s.phase ≠ .error) ∧ s.errKind ≠ .badTag

/-- `0 <= cursor <= N` (R21); `DONE` is at the end of the span (R22); in `ERROR` the cursor holds the
offset of a tag whose chunk does not fit (R93, R94). -/
def State.CursorInv (s : State) : Prop :=
  s.cursor ≤ s.data.size ∧
  (s.phase = .done → s.cursor = s.data.size) ∧
  (s.phase = .error →
    ∃ tag, s.data.read s.cursor = some tag ∧ s.data.size < s.cursor + chunkLength tag)

/-- The last pixel of a sequence with a given hash, or the reset value of a slot if there is none. -/
def lastWithHash (j : CacheIndex) (pixels : List Pixel) : Pixel :=
  ((pixels.filter fun p => pixelHash p = j).getLast?).getD State.zeroPixel

/-- Every slot holds "exactly the last pixel whose hash collided into that slot", or its reset value
(R20, R108): read off the emitted pixels, since what a chunk emits is what it stores (R70, R86). -/
def State.CacheInv (s : State) : Prop := ∀ j, s.cacheRead j = lastWithHash j s.out

/-- `px` is the last pixel emitted, or its reset value before the first (R13, R70). -/
def State.PxInv (s : State) : Prop := s.px = s.out.getLast?.getD State.resetPixel

/-- Every chunk takes at most 5 bytes and emits at least one pixel (R48, R75), and takes at least one
byte and emits at most 62. -/
def State.CountInv (s : State) : Prop :=
  s.cursor ≤ Config.maxChunkLen * s.out.length ∧
  s.out.length ≤ (Config.maxRunField + 1) * s.cursor

/-- The invariant of a decode: it holds after `reset(data, N)` and at every chunk boundary. -/
def State.Inv (s : State) : Prop :=
  s.data.wf = true ∧ s.StatusInv ∧ s.CursorInv ∧ s.CacheInv ∧ s.PxInv ∧ s.CountInv

/-- The launch premise `N < 2^CURSOR_W` of a real cursor (R7, R21; D3). -/
def State.LaunchOk (s : State) : Prop := s.data.size < 2 ^ Config.cursorW

end Sys2Proof.Machine
end

