-- ==== Sys2Proof/Certificates/Slice0/Obligations.lean ====
section
/-!
DEFINITION. The statements for the provers. `Sys2Proof.Spec` transcribes the rules a second time, by
the spec's own shifts, masks and remainders and without the model's operations, so that a statement
compares the model with the spec and not with itself.
-/

namespace Sys2Proof.Spec

open Sys2Proof.Machine

/-- `v[lo+width-1:lo]` by shift and mask, as the source writes it (R8), as an integer (R9). -/
def fld (v : Byte) (lo width : Nat) : Int := ((v.toNat >>> lo) &&& (2 ^ width - 1) : Nat)

/-- `wrap8(v)`, the non-negative remainder mod 256 (R9). -/
def wrap8 (v : Int) : Byte := BitVec.ofNat 8 (v % 256).toNat

/-- `(3*p.r + 5*p.g + 7*p.b + 11*p.a) mod 64` (R18). -/
def hash (p : Pixel) : Nat := (3 * p.r.toNat + 5 * p.g.toNat + 7 * p.b.toNat + 11 * p.a.toNat) % 64

theorem hash_lt (p : Pixel) : hash p < 64 := Nat.mod_lt _ (Nat.zero_lt_succ 63)

/-- `cache[i] <- p` at the pixel's own hash (R70). -/
def store (cache : Vector Pixel 64) (p : Pixel) : Vector Pixel 64 :=
  cache.set (hash p) p (hash_lt p)

/-- `cache[i]` for a number taken mod 64 (R34). -/
def slot (cache : Vector Pixel 64) (i : Nat) : Pixel :=
  cache[i % 64]'(Nat.mod_lt _ (Nat.zero_lt_succ 63))

/-- The state after a chunk that left `p` in `px`, emitted `copies` extra copies of the old `px`,
and has `len` bytes: the copies, the epilogue's store and emission, the advance; nothing else
(R72). -/
def chunkDone (s : State) (p : Pixel) (copies len : Nat) : State :=
  { s with
    px := p
    cache := store s.cache p
    out := s.out ++ List.replicate copies s.px ++ [p]
    cursor := s.cursor + len }

/-- The state after `raise Truncated`: phase and err_kind, nothing else (R93). -/
def truncated (s : State) : State := { s with phase := .error, errKind := .truncated }

/-- `d[c + k]`. -/
def byteAt (s : State) (k : Nat) : Byte := (s.data.read (s.cursor + k)).getD 0

/-- The pixel of DIFF: each colour plus its 2-bit field minus 2 (R82). -/
def diffPixel (old : Pixel) (tag : Byte) : Pixel :=
  { r := wrap8 (old.r.toNat + fld tag 4 2 - 2)
    g := wrap8 (old.g.toNat + fld tag 2 2 - 2)
    b := wrap8 (old.b.toNat + fld tag 0 2 - 2)
    a := old.a }

/-- The pixel of LUMA: green plus dg, red and blue plus dg and their nibble minus 8 (R83). -/
def lumaPixel (old : Pixel) (tag nb : Byte) : Pixel :=
  { r := wrap8 (old.r.toNat + (fld tag 0 6 - 32) + fld nb 4 4 - 8)
    g := wrap8 (old.g.toNat + (fld tag 0 6 - 32))
    b := wrap8 (old.b.toNat + (fld tag 0 6 - 32) + fld nb 0 4 - 8)
    a := old.a }

/-- The length a tag gives its chunk (R67, R72). -/
def length (tag : Byte) : Nat :=
  if tag = 0xFF then 5 else if tag = 0xFE then 4 else if fld tag 6 2 = 2 then 2 else 1

/-- The pseudocode of R72, line by line, for a state with `phase = RUNNING`. -/
def stepR72 (s : State) : State :=
  if s.cursor = s.data.size then { s with phase := .done }
  else
    let tag := byteAt s 0
    let len := length tag
    if s.data.size < s.cursor + len then truncated s
    else if tag = 0xFF then
      chunkDone s { r := byteAt s 1, g := byteAt s 2, b := byteAt s 3, a := byteAt s 4 } 0 len
    else if tag = 0xFE then
      chunkDone s { r := byteAt s 1, g := byteAt s 2, b := byteAt s 3, a := s.px.a } 0 len
    else if fld tag 6 2 = 0 then chunkDone s (slot s.cache tag.toNat) 0 len
    else if fld tag 6 2 = 1 then chunkDone s (diffPixel s.px tag) 0 len
    else if fld tag 6 2 = 2 then chunkDone s (lumaPixel s.px tag (byteAt s 1)) 0 len
    else chunkDone s s.px (fld tag 0 6).toNat len

/-- What a chunk leaves in `px` (R76, R79 to R83, R86). -/
def newPx (px : Pixel) (cache : Vector Pixel 64) : Instr → Pixel
  | .rgba r g b a => { r := r, g := g, b := b, a := a }
  | .rgb r g b => { r := r, g := g, b := b, a := px.a }
  | .index i => slot cache i.toNat
  | .diff dr dg db =>
    { r := wrap8 (px.r.toNat + dr), g := wrap8 (px.g.toNat + dg), b := wrap8 (px.b.toNat + db)
      a := px.a }
  | .luma dg drDg dbDg =>
    { r := wrap8 (px.r.toNat + dg + drDg), g := wrap8 (px.g.toNat + dg)
      b := wrap8 (px.b.toNat + dg + dbDg), a := px.a }
  | .run _ => px

/-- The extra copies a chunk emits before its epilogue (R75, R86). -/
def copies : Instr → Nat
  | .run k => k
  | _ => 0

/-- The pixels a sequence of chunks emits, from a given `px` and cache (R72, chunk by chunk). -/
def pixels (px : Pixel) (cache : Vector Pixel 64) : List Instr → List Pixel
  | [] => []
  | i :: rest =>
    List.replicate (copies i) px ++ newPx px cache i ::
      pixels (newPx px cache i) (store cache (newPx px cache i)) rest

/-- The bytes a sequence of chunks assembles to (R61). -/
def streamBytes (chunks : List Instr) : List Byte := chunks.flatMap encode

/-- The decode of a span from `reset(data, N)` (R101). -/
def launch (bytes : List Byte) : State := State.resetOn (Memory.ofBytes bytes)

/-- The number whose byte k is byte k of a list: spec/opcode_table.json's numbering of bits. -/
def leWord : List Byte → Nat
  | [] => 0
  | b :: rest => b.toNat + 256 * leWord rest

end Sys2Proof.Spec

open Sys2Proof Sys2Proof.Machine

/-! ### Encoding -/

/-- R56 (which the spec derives from R49): the six ranges of tag values, and how many values each
kind has. -/
def Obligations.TagValuesPartition : Prop :=
  (∀ tag : Byte,
    (tagKind tag = .index ↔ tag.toNat ≤ 0x3F) ∧
    (tagKind tag = .diff ↔ 0x40 ≤ tag.toNat ∧ tag.toNat ≤ 0x7F) ∧
    (tagKind tag = .luma ↔ 0x80 ≤ tag.toNat ∧ tag.toNat ≤ 0xBF) ∧
    (tagKind tag = .run ↔ 0xC0 ≤ tag.toNat ∧ tag.toNat ≤ 0xFD) ∧
    (tagKind tag = .rgb ↔ tag = 0xFE) ∧
    (tagKind tag = .rgba ↔ tag = 0xFF)) ∧
  (let count := fun k => ((List.range 256).filter fun n => tagKind (BitVec.ofNat 8 n) = k).length
   count .index = 64 ∧ count .diff = 64 ∧ count .luma = 64 ∧ count .run = 62 ∧
   count .rgb = 1 ∧ count .rgba = 1)

/-- R67: the length of a chunk from its tag byte alone. -/
def Obligations.TagGivesLength : Prop :=
  ∀ tag : Byte, chunkLength tag =
    if tag = 0xFF then 5 else if tag = 0xFE then 4
    else if 0x80 ≤ tag.toNat ∧ tag.toNat ≤ 0xBF then 2 else 1

/-- R50 to R55, R61 (the notation of R61 is the spec's own, D10): the bytes of a well-formed chunk,
whatever follows them, decode to it. That an operand is held as the field of RUN and as unbiased
deltas is the model's, DESIGN CHOICE (log 13); R59 is the spec's inference. -/
def Obligations.EncodedChunkDecodesToItself : Prop :=
  ∀ (i : Instr) (rest : List Byte), i.wf = true → decode (encode i ++ rest) = .ok (i, rest)

/-- R60 (one parse), R61: a decoded chunk is well formed and its encoding is the bytes it was read
from. That an operand is held as the field of RUN and as unbiased deltas is the model's, DESIGN
CHOICE (log 13). R60 is the spec's inference. -/
def Obligations.DecodedChunkEncodesToItsBytes : Prop :=
  ∀ (bytes rest : List Byte) (i : Instr),
    decode bytes = .ok (i, rest) → i.wf = true ∧ bytes = encode i ++ rest

/-- R57, and R56 (which the spec derives): every tag and every operand byte is legal. What well
formed means rests on the operands the model chose, DESIGN CHOICE (log 13). -/
def Obligations.EveryTagIsAWellFormedChunk : Prop :=
  ∀ tag b1 b2 b3 b4 : Byte, ∃ i rest,
    decode [tag, b1, b2, b3, b4] = .ok (i, rest) ∧ i.wf = true ∧ i.kind = tagKind tag

/-- R59, R77 (which the spec derives): any span is, in order, whole well-formed chunks and then
nothing or a proper part of one more. That an operand is held as the field of RUN and as unbiased
deltas is the model's, DESIGN CHOICE (log 13). -/
def Obligations.EverySpanIsChunksAndAtMostOneCutOff : Prop :=
  ∀ bytes : List Byte, ∃ chunks : List Instr, (∀ i ∈ chunks, i.wf = true) ∧
    (bytes = Spec.streamBytes chunks ∨
      ∃ (i : Instr) (n : Nat), i.wf = true ∧ 0 < n ∧ n < (encode i).length ∧
        bytes = Spec.streamBytes chunks ++ (encode i).take n)

/-- Words written out from the diagrams of R50 to R55 and the programs of 95_test_vectors.md. That
an operand is held as the field of RUN and as unbiased deltas is the model's, DESIGN CHOICE (log
13). -/
def Obligations.WordsOfEachFormatDecode : Prop :=
  decode [0xFF, 0x0A, 0x14, 0x1E, 0xFF] = .ok (.rgba 10 20 30 255, []) ∧
  decode [0xFE, 0x40, 0x00, 0x00, 0x35] = .ok (.rgb 64 0 0, [0x35]) ∧
  decode [0x35] = .ok (.index 53, []) ∧
  decode [0x4E] = .ok (.diff (-2) 1 0, []) ∧
  decode [0xA4, 0x7A] = .ok (.luma 4 (-1) 2, []) ∧
  decode [0x80, 0x0F] = .ok (.luma (-32) (-8) 7, []) ∧
  decode [0xFD] = .ok (.run 61, []) ∧
  decode [0xFE, 0x01, 0x02] = .error (.truncated 0xFE)

/-- The opcode table's numbering of a chunk's bits reads back as the chunk. That an operand is held
as the field of RUN and as unbiased deltas is the model's, DESIGN CHOICE (log 13). -/
def Obligations.TableWordDecodes : Prop :=
  ∀ i : Instr, i.wf = true →
    decodeTableWord (8 * kindLength i.kind) (Spec.leWord (encode i)) = some i

/-! ### Operations -/

/-- R18, and R19 (which the spec derives from it): the hash, in any width of 6 bits or more, and
from the low six bits of each channel; with the worked examples of R19. -/
def Obligations.HashIsSameInEveryWidth : Prop :=
  (∀ p : Pixel,
    (pixelHash p).toNat =
      (3 * p.r.toNat + 5 * p.g.toNat + 7 * p.b.toNat + 11 * p.a.toNat) % 64 ∧
    (pixelHash p).toNat =
      (p.r.toNat % 64 * 3 + p.g.toNat % 64 * 5 + p.b.toNat % 64 * 7 + p.a.toNat % 64 * 11) % 64 ∧
    ∀ w, 6 ≤ w →
      (pixelHash p).toNat =
        (BitVec.ofNat w 3 * BitVec.ofNat w p.r.toNat + BitVec.ofNat w 5 * BitVec.ofNat w p.g.toNat +
          BitVec.ofNat w 7 * BitVec.ofNat w p.b.toNat +
          BitVec.ofNat w 11 * BitVec.ofNat w p.a.toNat).toNat % 64) ∧
  (pixelHash ⟨0, 0, 0, 255⟩).toNat = 53 ∧ (pixelHash ⟨10, 20, 30, 255⟩).toNat = 9 ∧
  (pixelHash ⟨0, 0, 0, 0⟩).toNat = 0

/-- R84: the channel sum taken in the integers and reduced mod 256, equally the low 8 bits of the
two's-complement sum in any width of 8 bits or more. -/
def Obligations.ChannelSumIsSameInEveryWidth : Prop :=
  ∀ (old : Byte) (delta : Int),
    ((addDelta old delta).toNat : Int) = ((old.toNat : Int) + delta) % 256 ∧
    ∀ w, 8 ≤ w →
      addDelta old delta = (BitVec.ofNat w old.toNat + BitVec.ofInt w delta).setWidth 8

/-- R85 (which the spec derives): each lane's result depends only on its own old value and delta;
alpha passes through. -/
def Obligations.DeltaLanesAreSeparate : Prop :=
  ∀ (p q : Pixel) (dr dg db er eg eb : Int),
    (p.r = q.r → dr = er → (withDeltas p dr dg db).r = (withDeltas q er eg eb).r) ∧
    (p.g = q.g → dg = eg → (withDeltas p dr dg db).g = (withDeltas q er eg eb).g) ∧
    (p.b = q.b → db = eb → (withDeltas p dr dg db).b = (withDeltas q er eg eb).b) ∧
    (withDeltas p dr dg db).a = p.a

/-- R39 (the default of an open parameter, D5; log 16): where each channel lies in the packed
word, and that packing loses nothing. -/
def Obligations.PackedWordHoldsChannels : Prop :=
  (∀ p : Pixel,
    (packPixel p).toNat =
      p.r.toNat + 2 ^ 8 * p.g.toNat + 2 ^ 16 * p.b.toNat + 2 ^ 24 * p.a.toNat) ∧
  (∀ p : Pixel, unpackPixel (packPixel p) = p) ∧
  (∀ w : BitVec 32, packPixel (unpackPixel w) = w)

/-- R22, R23, R28 (the spec's own decision, D6): the codes of the status outputs; 0b00 of phase
and 3 of err_kind are not used. -/
def Obligations.StatusPortCodes : Prop :=
  phaseCode .running = 1 ∧ phaseCode .done = 2 ∧ phaseCode .error = 3 ∧
  errCode .none = 0 ∧ errCode .truncated = 1 ∧ errCode .badTag = 2 ∧
  (∀ s : State, s.statusPort.1 ≠ 0 ∧ s.statusPort.2.1 ≠ 3 ∧ s.statusPort.2.2 = s.cursor)

/-- The canonical form of the span (the model's own, log 2): two spans in it of one length that
read the same at every address are equal data. -/
def Obligations.SpansThatReadTheSameAreEqual : Prop :=
  ∀ m m' : Memory, m.wf = true → m'.wf = true → m.size = m'.size →
    (∀ addr, m.read addr = m'.read addr) → m = m'

/-! ### Reset -/

/-- R29, R101: what `reset(data, N)` leaves, for every span; and the same values in `State.reset`,
whose span is the model's own choice (log 3) and is not stated here. The fields phase and err_kind
are the spec's decision D6, reset as decode start its decision D9. -/
def Obligations.ResetSetsEveryPieceOfState : Prop :=
  (∀ bytes : List Byte,
    (Spec.launch bytes).px = ⟨0, 0, 0, 255⟩ ∧
    (∀ i, i < 64 → Spec.slot (Spec.launch bytes).cache i = ⟨0, 0, 0, 0⟩) ∧
    (Spec.launch bytes).cursor = 0 ∧
    (Spec.launch bytes).phase = .running ∧
    (Spec.launch bytes).errKind = .none ∧
    (Spec.launch bytes).out = [] ∧
    (Spec.launch bytes).data.size = bytes.length ∧
    (∀ addr, (Spec.launch bytes).data.read addr = bytes[addr]?)) ∧
  State.reset.px = ⟨0, 0, 0, 255⟩ ∧
  (∀ i, i < 64 → Spec.slot State.reset.cache i = ⟨0, 0, 0, 0⟩) ∧
  State.reset.cursor = 0 ∧ State.reset.phase = .running ∧ State.reset.errKind = .none ∧
  State.reset.out = []

/-! ### Each chunk completes: exec's next state, whole, and so its frame (R76) -/

/-- R79, at the instruction: RGBA completes wherever it fits. Every field not written is unchanged.
That exec reads neither phase nor err_kind is the model's, DEDUCED from R24 (log 10). -/
def Obligations.RgbaCompletes : Prop :=
  ∀ (r g b a : Byte) (s : State), s.cursor + 5 ≤ s.data.size →
    exec (.rgba r g b a) s = .next (Spec.chunkDone s ⟨r, g, b, a⟩ 0 5)

/-- R80, at the instruction: RGB completes wherever it fits, and keeps alpha. That exec reads
neither phase nor err_kind is the model's, DEDUCED from R24 (log 10). -/
def Obligations.RgbCompletes : Prop :=
  ∀ (r g b : Byte) (s : State), s.cursor + 4 ≤ s.data.size →
    exec (.rgb r g b) s = .next (Spec.chunkDone s ⟨r, g, b, s.px.a⟩ 0 4)

/-- R81, at the instruction: INDEX completes in every state. That it completes at every cursor, also
at or beyond N, where R65 and R68 let no step run it, and in every phase is the model's, DEDUCED
(log 10), and no rule of the spec. -/
def Obligations.IndexCompletes : Prop :=
  ∀ (i : CacheIndex) (s : State),
    exec (.index i) s = .next (Spec.chunkDone s (Spec.slot s.cache i.toNat) 0 1)

/-- R82, at the instruction: DIFF completes in every state. That it completes at every cursor, also
at or beyond N, where R65 and R68 let no step run it, and in every phase is the model's, DEDUCED
(log 10), and no rule of the spec. Operands beyond the ranges of R61 are the model's (log 13). -/
def Obligations.DiffCompletes : Prop :=
  ∀ (dr dg db : Int) (s : State),
    exec (.diff dr dg db) s = .next (Spec.chunkDone s
      ⟨Spec.wrap8 (s.px.r.toNat + dr), Spec.wrap8 (s.px.g.toNat + dg),
        Spec.wrap8 (s.px.b.toNat + db), s.px.a⟩ 0 1)

/-- R83, at the instruction: LUMA completes wherever it fits. That exec reads neither phase nor
err_kind is the model's, DEDUCED from R24 (log 10). Operands beyond the ranges of R61 are the
model's (log 13). -/
def Obligations.LumaCompletes : Prop :=
  ∀ (dg drDg dbDg : Int) (s : State), s.cursor + 2 ≤ s.data.size →
    exec (.luma dg drDg dbDg) s = .next (Spec.chunkDone s
      ⟨Spec.wrap8 (s.px.r.toNat + dg + drDg), Spec.wrap8 (s.px.g.toNat + dg),
        Spec.wrap8 (s.px.b.toNat + dg + dbDg), s.px.a⟩ 0 2)

/-- R86, at the instruction: RUN completes in every state, emits k+1 copies, stores once, and leaves
`px` as it was. That it completes at every cursor, also at or beyond N, where R65 and R68 let no
step run it, and in every phase is the model's, DEDUCED (log 10), and no rule of the spec. Operands
beyond the ranges of R61 are the model's (log 13). R87's single store is the spec's decision D17. -/
def Obligations.RunCompletes : Prop :=
  ∀ (k : Nat) (s : State), exec (.run k) s = .next (Spec.chunkDone s s.px k 1)

/-- R68, R79, R80, R83: the three kinds that can be truncated, and what they then do. (That px and
cache are kept is the spec's own decision D7; log 5.) That exec reads neither phase nor err_kind is
the model's, DEDUCED from R24 (log 10). -/
def Obligations.MultiByteChunksTrapWhereTheyDoNotFit : Prop :=
  ∀ (i : Instr) (s : State),
    i.kind = .rgba ∧ s.data.size < s.cursor + 5 ∨ i.kind = .rgb ∧ s.data.size < s.cursor + 4 ∨
      i.kind = .luma ∧ s.data.size < s.cursor + 2 →
    exec i s = .next (Spec.truncated s)

/-! ### Frames over all chunks -/

/-- R33, R36, R17, R74: what no chunk changes. Every byte of the span reads as before; no emitted
pixel is withdrawn; every slot but the one at the new pixel's hash is unchanged; the status fields
are unchanged unless the chunk is truncated. (That px and cache are kept when it is truncated is the
spec's own decision D7; log 5.) It speaks of exec in every state, where that exec reads neither
phase nor err_kind and INDEX, DIFF and RUN check no bounds is the model's, DEDUCED (log 10). R36's
sink that takes every pixel is the spec's decision D4 (log 7). -/
def Obligations.ChunkFrame : Prop :=
  ∀ (i : Instr) (s t : State), exec i s = .next t →
    t.data.size = s.data.size ∧
    (∀ addr, t.data.read addr = s.data.read addr) ∧
    s.out <+: t.out ∧
    (∀ j < 64, j ≠ Spec.hash t.px → Spec.slot t.cache j = Spec.slot s.cache j) ∧
    (t = Spec.truncated s ∨
      t.phase = s.phase ∧ t.errKind = s.errKind ∧ t.cursor = s.cursor + kindLength i.kind)

/-- R14: RGB, DIFF, LUMA and RUN leave alpha unchanged, RUN all four channels. (Where RGB or LUMA is
truncated, that px is kept is the spec's own decision D7; log 5.) It speaks of exec in every state,
where that exec reads neither phase nor err_kind and INDEX, DIFF and RUN check no bounds is the
model's, DEDUCED (log 10). -/
def Obligations.ChannelsEachChunkKeeps : Prop :=
  ∀ (i : Instr) (s t : State), exec i s = .next t →
    (i.kind = .rgb ∨ i.kind = .diff ∨ i.kind = .luma ∨ i.kind = .run → t.px.a = s.px.a) ∧
    (i.kind = .run → t.px = s.px)

/-- R24: no chunk reads `phase` or `err_kind`: with any other status a chunk that fits does the same
and leaves that status. That exec leaves the phase check to the step is the model's, DEDUCED from
R24 (log 10). -/
def Obligations.NoChunkReadsStatus : Prop :=
  ∀ (i : Instr) (s t : State) (p : Phase) (e : ErrKind),
    s.cursor + kindLength i.kind ≤ s.data.size → exec i s = .next t →
    exec i { s with phase := p, errKind := e } = .next { t with phase := p, errKind := e }

/-- R60 (which the spec derives): three encodings of no change of pixel, which differ only in how
far they advance. That exec reads neither phase nor err_kind is the model's, DEDUCED from R24 (log
10). -/
def Obligations.ThreeWaysToRepeatThePixel : Prop :=
  decode [0x6A] = .ok (.diff 0 0 0, []) ∧ decode [0xA0, 0x88] = .ok (.luma 0 0 0, []) ∧
  decode [0xC0] = .ok (.run 0, []) ∧
  ∀ s : State, s.cursor + 2 ≤ s.data.size →
    exec (.diff 0 0 0) s = .next (Spec.chunkDone s s.px 0 1) ∧
    exec (.luma 0 0 0) s = .next (Spec.chunkDone s s.px 0 2) ∧
    exec (.run 0) s = .next (Spec.chunkDone s s.px 0 1)

/-! ### The step -/

/-- R66, R69: a running step whose bytes decode to a chunk runs exactly that chunk, and adds nothing
around it. That a fetch takes up to five bytes at once is the model's, DEDUCED (log 18). -/
def Obligations.StepRunsDecodedChunk : Prop :=
  ∀ (s : State) (i : Instr) (rest : List Byte), s.phase = .running → s.cursor < s.data.size →
    decode (s.data.bytesFrom s.cursor 5) = .ok (i, rest) → step s = exec i s

/-- R69, R63: a running step at the bytes of a well-formed chunk runs that chunk, which completes.
-/
def Obligations.StepRunsEncodedChunk : Prop :=
  ∀ (s : State) (i : Instr), s.phase = .running → i.wf = true →
    (∀ k b, (encode i)[k]? = some b → s.data.read (s.cursor + k) = some b) →
    step s = exec i s ∧
    ∃ t, step s = .next t ∧ t.phase = .running ∧ t.cursor = s.cursor + (encode i).length

/-- The host's placing of an instruction (log 14): whatever word is placed decodes, and the very
next step runs it. The canonical form of the span, its premise, is the model's too (log 2). -/
def Obligations.FetchWordIsRunNext : Prop :=
  ∀ (s : State) (nbits w : Nat), s.data.wf = true → s.cursor ≤ s.data.size →
    ∃ i, decodeTableWord nbits w = some i ∧
      step (s.withFetchWord nbits w) = exec i (s.withFetchWord nbits w)

/-- R64, with R22: a step exists exactly while the decode runs. That step answers a fault where no
step exists is the model's, DEDUCED (log 4); the premise is R21's cursor <= N. -/
def Obligations.StepExistsExactlyWhileRunning : Prop :=
  ∀ s : State, s.cursor ≤ s.data.size → ((∃ t, step s = .next t) ↔ s.phase = .running)

/-- R65 (a step of its own: D14): at the end of the span the step sets `phase <- DONE` and nothing
else, also as the first step after reset on the empty span; before the end it decodes a chunk and
does not end so. -/
def Obligations.EndOfSpanEndsDecode : Prop :=
  (∀ s : State, s.phase = .running → s.cursor = s.data.size →
    step s = .next { s with phase := .done }) ∧
  (∀ s : State, s.phase = .running → s.cursor < s.data.size →
    ∃ t, step s = .next t ∧ t.phase ≠ .done) ∧
  step (Spec.launch []) = .next { Spec.launch [] with phase := .done }

/-- R93, with R68: a chunk that runs past the span raises `Truncated`: phase and err_kind change
and nothing else. (That px and cache are kept is the spec's own decision D7; log 5.) -/
def Obligations.TruncatedChunkRaisesError : Prop :=
  ∀ (s : State) (tag : Byte), s.phase = .running → s.data.read s.cursor = some tag →
    s.data.size < s.cursor + Spec.length tag → step s = .next (Spec.truncated s)

/-- R68, R77, R90: truncation is the only error a step can meet, and only RGBA, RGB and LUMA can
meet it. (That px and cache are kept is the spec's own decision D7; log 5.) R77 is the spec's
inference. -/
def Obligations.OnlyTruncationIsAnError : Prop :=
  ∀ s t : State, step s = .next t → t.phase = .error →
    t = Spec.truncated s ∧
    ∃ tag, s.data.read s.cursor = some tag ∧ s.data.size < s.cursor + Spec.length tag ∧
      (tag = 0xFF ∨ tag = 0xFE ∨ 0x80 ≤ tag.toNat ∧ tag.toNat ≤ 0xBF)

/-- R72: every step of a running decode is the pseudocode's. (That px and cache are kept after a
truncated chunk is the spec's own decision D7; log 5. That DONE takes a step of its own is its
decision D14.) -/
def Obligations.StepIsThePseudocode : Prop :=
  ∀ s : State, s.phase = .running → s.cursor ≤ s.data.size → step s = .next (Spec.stepR72 s)

/-- R79: RGBA as a step, from the bytes of the span. (That px and cache are kept when it is truncated
is the spec's own decision D7; log 5.) -/
def Obligations.RgbaStep : Prop :=
  ∀ s : State, s.phase = .running → s.data.read s.cursor = some 0xFF →
    (s.data.size < s.cursor + 5 → step s = .next (Spec.truncated s)) ∧
    (∀ r g b a, s.data.read (s.cursor + 1) = some r → s.data.read (s.cursor + 2) = some g →
      s.data.read (s.cursor + 3) = some b → s.data.read (s.cursor + 4) = some a →
      step s = .next (Spec.chunkDone s ⟨r, g, b, a⟩ 0 5))

/-- R80: RGB as a step, from the bytes of the span. (That px and cache are kept when it is truncated
is the spec's own decision D7; log 5.) -/
def Obligations.RgbStep : Prop :=
  ∀ s : State, s.phase = .running → s.data.read s.cursor = some 0xFE →
    (s.data.size < s.cursor + 4 → step s = .next (Spec.truncated s)) ∧
    (∀ r g b, s.data.read (s.cursor + 1) = some r → s.data.read (s.cursor + 2) = some g →
      s.data.read (s.cursor + 3) = some b →
      step s = .next (Spec.chunkDone s ⟨r, g, b, s.px.a⟩ 0 4))

/-- R81: INDEX as a step. -/
def Obligations.IndexStep : Prop :=
  ∀ (s : State) (tag : Byte), s.phase = .running → s.data.read s.cursor = some tag →
    Spec.fld tag 6 2 = 0 →
    step s = .next (Spec.chunkDone s (Spec.slot s.cache (Spec.fld tag 0 6).toNat) 0 1)

/-- R82: DIFF as a step. -/
def Obligations.DiffStep : Prop :=
  ∀ (s : State) (tag : Byte), s.phase = .running → s.data.read s.cursor = some tag →
    Spec.fld tag 6 2 = 1 → step s = .next (Spec.chunkDone s (Spec.diffPixel s.px tag) 0 1)

/-- R83: LUMA as a step. (That px and cache are kept when it is truncated is the spec's own decision
D7; log 5.) -/
def Obligations.LumaStep : Prop :=
  ∀ (s : State) (tag : Byte), s.phase = .running → s.data.read s.cursor = some tag →
    Spec.fld tag 6 2 = 2 →
    (s.data.size < s.cursor + 2 → step s = .next (Spec.truncated s)) ∧
    (∀ nb, s.data.read (s.cursor + 1) = some nb →
      step s = .next (Spec.chunkDone s (Spec.lumaPixel s.px tag nb) 0 2))

/-- R86: RUN as a step. -/
def Obligations.RunStep : Prop :=
  ∀ (s : State) (tag : Byte), s.phase = .running → s.data.read s.cursor = some tag →
    Spec.fld tag 6 2 = 3 → tag ≠ 0xFE → tag ≠ 0xFF →
    step s = .next (Spec.chunkDone s s.px (Spec.fld tag 0 6).toNat 1)

/-! ### What every step does and does not do -/

/-- R71: a step after which the decode still runs advanced the cursor by exactly its chunk's
length, to N at most. -/
def Obligations.CursorAdvancesByLength : Prop :=
  ∀ s t : State, step s = .next t → t.phase = .running →
    ∃ tag, s.data.read s.cursor = some tag ∧ t.cursor = s.cursor + Spec.length tag ∧
      t.cursor ≤ s.data.size

/-- R75 (which the spec derives from R70 and R86): a completed chunk emits copies of the pixel it
leaves: 1, or k+1 for RUN with field k, so 1..62. -/
def Obligations.ChunkEmitsCopiesOfItsPixel : Prop :=
  ∀ s t : State, step s = .next t → t.phase = .running →
    ∃ tag n, s.data.read s.cursor = some tag ∧
      n = (if 0xC0 ≤ tag.toNat ∧ tag.toNat ≤ 0xFD then (Spec.fld tag 0 6).toNat + 1 else 1) ∧
      1 ≤ n ∧ n ≤ 62 ∧ t.out = s.out ++ List.replicate n t.px

/-- R17, R70: a step writes at most one slot, the one at the new pixel's hash, and writes it exactly
when it completes a chunk. (That the cache is kept after a truncated chunk is the spec's own
decision D7; log 5.) R87's single store is the spec's decision D17. -/
def Obligations.CacheIsWrittenOnlyAtTheHash : Prop :=
  ∀ s t : State, step s = .next t →
    (t.phase = .running → t.cache = Spec.store s.cache t.px) ∧
    (t.phase ≠ .running → t.cache = s.cache)

/-- R33, R46: no step changes any byte of the span or its length. R46 is the spec's inference. -/
def Obligations.SpanIsNeverWritten : Prop :=
  ∀ s t : State, step s = .next t →
    t.data.size = s.data.size ∧ ∀ addr, t.data.read addr = s.data.read addr

/-- R36: the block never reads the sink, never withdraws or reorders a pixel: whatever the sink
holds, a step does the same and appends the same pixels; a step that leaves RUNNING appends none.
R78 is the spec's inference; a sink that takes every pixel is its decision D4 (log 7). -/
def Obligations.SinkIsOnlyAppendedTo : Prop :=
  ∀ s t : State, step s = .next t → ∃ new : List Pixel,
    t.out = s.out ++ new ∧ (t.phase ≠ .running → new = []) ∧
    ∀ o : List Pixel, step { s with out := o } = .next { t with out := o ++ new }

/-- R32 (which the spec derives): a chunk reads the bytes of its own length and no other: over any
span that has those bytes, whatever else it has and however long it is, the step is the same. That a
fetch takes up to five bytes at once is the model's, DEDUCED (log 18). R78 is the spec's inference.
-/
def Obligations.ChunkReadsOnlyItsOwnBytes : Prop :=
  ∀ (s t : State) (m : Memory), step s = .next t → t.phase = .running →
    (∀ addr, s.cursor ≤ addr → addr < t.cursor → m.read addr = s.data.read addr) →
    step { s with data := m } = .next { t with data := m }

/-- R107: what one chunk leaves in `px` is what the next chunk starts from: a RUN right after any
completed chunk emits copies of that chunk's pixel and no other. -/
def Obligations.RunAfterChunkRepeatsItsPixel : Prop :=
  ∀ (s t : State) (tag : Byte), step s = .next t → t.phase = .running →
    t.data.read t.cursor = some tag → 0xC0 ≤ tag.toNat → tag.toNat ≤ 0xFD →
    ∃ (u : State) (n : Nat), step t = .next u ∧ u.px = t.px ∧ u.cache = t.cache ∧ 0 < n ∧
      u.out = t.out ++ List.replicate n t.px ∧ t.out.getLast? = some t.px

/-- R81, R20: INDEX of the slot of `px` right after any completed chunk emits `px` again, unchanged,
and leaves the whole cache as it was. R20 is the spec's inference. -/
def Obligations.LookupOfOwnSlotRepeatsPixel : Prop :=
  ∀ (s t : State) (tag : Byte), step s = .next t → t.phase = .running →
    t.data.read t.cursor = some tag → tag.toNat = Spec.hash t.px →
    step t = .next { t with out := t.out ++ [t.px], cursor := t.cursor + 1 }

/-- R81's corner case of an unwritten slot: the first chunk INDEX 53 (byte 0x35) returns the zero
pixel, not the reset value of `px`, and overwrites slot 0, whatever follows in the span. R20 is the
spec's inference. -/
def Obligations.FirstLookupOfSlotFiftyThree : Prop :=
  ∀ rest : List Byte, ∃ t, step (Spec.launch (0x35 :: rest)) = .next t ∧
    t.px = ⟨0, 0, 0, 0⟩ ∧ t.out = [⟨0, 0, 0, 0⟩] ∧ t.cache = (Spec.launch []).cache ∧
    (Spec.launch (0x35 :: rest)).px = ⟨0, 0, 0, 255⟩

/-! ### Invariants -/

/-- The invariant of a decode holds after every `reset(data, N)`, `State.reset` included. The
canonical form of the span in it is the model's, DESIGN CHOICE (log 2), and no rule of the spec; the
span of `State.reset` is the model's, DESIGN CHOICE (log 3); R20, and R75 behind the bounds on the
cursor, are the spec's inferences, R22 and R23 its decisions (D6), reset as decode start its
decision D9. -/
def Obligations.ResetMeetsTheInvariant : Prop :=
  State.reset.Inv ∧ ∀ bytes : List Byte, (Spec.launch bytes).Inv

/-- R20 to R23, R75, R90, R93, R108 together (R20 and R75 the spec's inferences, R22 and R23 its
decisions, the canonical form of the span the model's, log 2; what it says of px and cache in ERROR
rests on the spec's decision D7, log 5): every step keeps the invariant. -/
def Obligations.StepKeepsTheInvariant : Prop :=
  ∀ s t : State, s.Inv → step s = .next t → t.Inv

/-- R23, R90 (the spec's own decision, D6): the status fields alone: every step keeps `err_kind =
NONE` exactly when `phase != ERROR`, and `BAD_TAG` out of reach. -/
def Obligations.StepKeepsStatusConsistent : Prop :=
  ∀ s t : State, s.StatusInv → step s = .next t → t.StatusInv

/-- R20 (which the spec derives): after every completed chunk `cache[hash(px)] = px`; not so before
the first; a slot holds its reset value or the last pixel with its hash, so its hash is its own
number or 0. (What it says of the cache in ERROR rests on the spec's own decision D7; log 5.) The
invariant it takes as premise includes the canonical form of the span, the model's (log 2), and
holds in every state of a decode (ResetMeetsTheInvariant, StepKeepsTheInvariant). -/
def Obligations.CacheInvariant : Prop :=
  (∀ s t : State, step s = .next t → t.phase = .running →
    Spec.slot t.cache (Spec.hash t.px) = t.px) ∧
  (∀ bytes, Spec.slot (Spec.launch bytes).cache (Spec.hash (Spec.launch bytes).px) ≠
    (Spec.launch bytes).px) ∧
  (∀ s : State, s.Inv → ∀ j : CacheIndex,
    (Spec.slot s.cache j.toNat = ⟨0, 0, 0, 0⟩ ∨
      Spec.slot s.cache j.toNat ∈ s.out ∧ Spec.hash (Spec.slot s.cache j.toNat) = j.toNat) ∧
    Spec.hash (Spec.slot s.cache 0) = 0)

/-- R108, R81, R29: a lookup returns "exactly the last pixel whose hash collided into that slot",
all four channels of it (R108), or the zero pixel of reset if there is none (R81, R29). The premise
Inv holds the canonical form of the span, the model's, DESIGN CHOICE (log 2), and of the cache what
R20 says, which the spec derives; it holds in every state of a decode (ResetMeetsTheInvariant,
StepKeepsTheInvariant). -/
def Obligations.LookupReturnsLastCollidingPixel : Prop :=
  ∀ (s : State) (tag : Byte), s.Inv → s.phase = .running → s.data.read s.cursor = some tag →
    Spec.fld tag 6 2 = 0 →
    ∃ t, step s = .next t ∧
      t.px = ((s.out.filter fun p => Spec.hash p = (Spec.fld tag 0 6).toNat).getLast?).getD
        ⟨0, 0, 0, 0⟩

/-- R21, R7: a cursor of any width W with `N < 2^W`, so in particular of CURSOR_W bits under the
launch premise, holds every value the cursor of a decode takes: it never wraps. The invariant it
takes as premise includes the canonical form of the span, the model's (log 2), and holds in every
state of a decode (ResetMeetsTheInvariant, StepKeepsTheInvariant). The width is open (D3): in the
model a constant with no body, DESIGN CHOICE (log 6). -/
def Obligations.CursorNeverWraps : Prop :=
  ∀ s t : State, s.Inv → step s = .next t →
    (∀ W, s.data.size < 2 ^ W → s.cursor < 2 ^ W ∧ t.cursor < 2 ^ W) ∧
    (s.LaunchOk → t.LaunchOk ∧ t.cursor < 2 ^ Config.cursorW)

/-! ### Whole decodes -/

/-- R73 (which the spec derives): from every running state with the cursor in the span, the decode
ends, in at most one step per byte left and one more. That the sink takes every pixel is the spec's
decision D4 (log 7), that the host leaves the span alone its decision D15 (log 8), and that DONE
takes a step of its own its decision D14; a host that breaks D4 or D15 is not modelled. -/
def Obligations.EveryDecodeEnds : Prop :=
  ∀ s : State, s.phase = .running → s.cursor ≤ s.data.size →
    ∃ k t, k ≤ s.data.size - s.cursor + 1 ∧ Sys2Proof.core.run k s = .next t ∧ t.phase ≠ .running

/-- R72, and R75 and R92 (which the spec derives): a span that is whole chunks decodes to `DONE` in
one step per chunk and one more, with exactly the pixels the rules give those chunks, as many as the
sum over the chunks. That the sink takes every pixel is the spec's decision D4 (log 7), that the
host leaves the span alone its decision D15 (log 8), and that DONE takes a step of its own its
decision D14. -/
def Obligations.WholeChunksDecodeToTheirPixels : Prop :=
  ∀ chunks : List Instr, (∀ i ∈ chunks, i.wf = true) →
    ∃ t : State,
      Sys2Proof.core.run (chunks.length + 1) (Spec.launch (Spec.streamBytes chunks)) = .next t ∧
      t.observe =
        { out := Spec.pixels ⟨0, 0, 0, 255⟩ State.reset.cache chunks
          phase := .done
          errKind := .none
          cursor := (Spec.streamBytes chunks).length } ∧
      t.out.length = (chunks.map fun i => Spec.copies i + 1).sum

/-- R93, R96, and R92 (which the spec derives): a span that ends inside a chunk decodes to `ERROR`,
`TRUNCATED`, with the cursor at that chunk's tag and the pixels of the chunks before it, and no
other. That the sink takes every pixel is the spec's decision D4 (log 7), that the host leaves the
span alone its decision D15 (log 8), and that DONE takes a step of its own its decision D14. The
cursor's place is the spec's decision D7. -/
def Obligations.CutOffChunkEndsInError : Prop :=
  ∀ (chunks : List Instr) (i : Instr) (n : Nat), (∀ j ∈ chunks, j.wf = true) → i.wf = true →
    0 < n → n < (encode i).length →
    ∃ t : State,
      Sys2Proof.core.run (chunks.length + 1)
        (Spec.launch (Spec.streamBytes chunks ++ (encode i).take n)) = .next t ∧
      t.observe =
        { out := Spec.pixels ⟨0, 0, 0, 255⟩ State.reset.cache chunks
          phase := .error
          errKind := .truncated
          cursor := (Spec.streamBytes chunks).length }
end

