-- ==== Sys2Proof/Laws/Decode.lean ====
section
/-!
SUPPORT. What the decoder can answer, said once.
-/

namespace Sys2Proof

theorem kindLength_pos (k : Kind) : 1 ≤ kindLength k := by cases k <;> decide

theorem kindLength_le_max (k : Kind) : kindLength k ≤ Config.maxChunkLen := by cases k <;> decide

theorem chunkLength_pos (tag : Byte) : 1 ≤ chunkLength tag := kindLength_pos _

theorem chunkLength_le_max (tag : Byte) : chunkLength tag ≤ Config.maxChunkLen :=
  kindLength_le_max _

/-- Decoding as a kind fails exactly when the bytes are fewer than that kind's. -/
theorem decodeAs_error {tag : Byte} {k : Kind} {tl : List Byte} {e : DecodeError} :
    decodeAs tag k tl = .error e ↔ tl.length + 1 < kindLength k ∧ e = .truncated tag := by
  cases k
  case rgba => rcases tl with _ | ⟨_, _ | ⟨_, _ | ⟨_, _ | ⟨_, _⟩⟩⟩⟩ <;>
    simp [decodeAs, kindLength, eq_comm]
  case rgb => rcases tl with _ | ⟨_, _ | ⟨_, _ | ⟨_, _⟩⟩⟩ <;> simp [decodeAs, kindLength, eq_comm]
  case luma => cases tl <;> simp [decodeAs, kindLength, eq_comm]
  all_goals simp [decodeAs, kindLength]

/-- Decoding as a kind gives a chunk of that kind and takes exactly its bytes. -/
theorem decodeAs_ok {tag : Byte} {k : Kind} {tl rest : List Byte} {i : Instr}
    (h : decodeAs tag k tl = .ok (i, rest)) :
    i.kind = k ∧ kindLength k ≤ tl.length + 1 ∧ rest = tl.drop (kindLength k - 1) := by
  cases k
  case rgba =>
    rcases tl with _ | ⟨_, _ | ⟨_, _ | ⟨_, _ | ⟨_, _⟩⟩⟩⟩ <;> cases h
    simp [Instr.kind, kindLength]
  case rgb =>
    rcases tl with _ | ⟨_, _ | ⟨_, _ | ⟨_, _⟩⟩⟩ <;> cases h
    simp [Instr.kind, kindLength]
  case luma =>
    cases tl <;> cases h
    simp [Instr.kind, kindLength, decodeLuma]
  all_goals
    cases h
    simp [Instr.kind, kindLength, decodeIndex, decodeDiff, decodeRun]

/-- The decoder refuses a sequence that begins with a tag exactly when it is shorter than that tag's
chunk, and names the tag. -/
theorem decode_cons_error {tag : Byte} {tl : List Byte} {e : DecodeError} :
    decode (tag :: tl) = .error e ↔ tl.length + 1 < chunkLength tag ∧ e = .truncated tag :=
  decodeAs_error

/-- A decoded chunk is of the kind its tag spells, and takes exactly that kind's bytes. -/
theorem decode_cons_ok {tag : Byte} {tl rest : List Byte} {i : Instr}
    (h : decode (tag :: tl) = .ok (i, rest)) :
    i.kind = tagKind tag ∧ chunkLength tag ≤ tl.length + 1 ∧
      rest = tl.drop (chunkLength tag - 1) :=
  decodeAs_ok h

end Sys2Proof
end

