-- ==== Sys2Proof/Laws/Memory.lean ====
section
/-!
SUPPORT. What the memory operations do: read after place, the canonical form kept by every operation,
and the span a list of bytes makes.
-/

namespace Sys2Proof.Machine

theorem Memory.read_eq_none {m : Memory} {a : Nat} : m.read a = none ↔ m.size ≤ a := by
  simp [Memory.read]

theorem Memory.read_eq_some {m : Memory} {a : Nat} {b : Byte} :
    m.read a = some b ↔ a < m.size ∧ Memory.lookup m.cells a = b := by
  simp [Memory.read]

/-- Every address of the span holds a byte (R31). -/
theorem Memory.exists_read {m : Memory} {a : Nat} (h : a < m.size) : ∃ b, m.read a = some b :=
  ⟨_, Memory.read_eq_some.2 ⟨h, rfl⟩⟩

/-- Cells from an address on list nothing below it. -/
theorem Memory.lookup_below {size lo : Nat} {cs : List Host.Cell} {x : Nat}
    (h : Memory.cellsWf size lo cs = true) (hx : x < lo) :
    Memory.lookup cs x = Memory.unlisted := by
  induction cs generalizing lo with
  | nil => rfl
  | cons c rest ih =>
    obtain ⟨a, b⟩ := c
    simp only [Memory.cellsWf, Bool.and_eq_true, decide_eq_true_eq] at h
    have ha : a ≠ x := by omega
    simp only [Memory.lookup, if_neg ha]
    exact ih h.2 (by omega)

/-- Replacing one cell changes what that address reads as and no other. -/
theorem Memory.lookup_putCell {size lo : Nat} {cs : List Host.Cell} {addr : Nat} {v : Byte}
    (h : Memory.cellsWf size lo cs = true) (x : Nat) :
    Memory.lookup (Memory.putCell addr v cs) x =
      if addr = x then v else Memory.lookup cs x := by
  induction cs generalizing lo with
  | nil =>
    by_cases hv : v = Memory.unlisted <;> simp [Memory.putCell, Memory.lookup, hv]
  | cons c rest ih =>
    obtain ⟨a, b⟩ := c
    simp only [Memory.cellsWf, Bool.and_eq_true, decide_eq_true_eq] at h
    have below : ∀ y, y ≤ a → Memory.lookup rest y = Memory.unlisted :=
      fun y hy => Memory.lookup_below h.2 (by omega)
    have hrest := ih h.2
    unfold Memory.putCell
    by_cases hlt : addr < a
    · rw [if_pos hlt]
      by_cases hv : v = Memory.unlisted
      · rw [if_pos hv]
        by_cases hx : addr = x
        · subst hx
          have hne : a ≠ addr := by omega
          simp [Memory.lookup, hne, below addr (by omega), hv]
        · simp [hx]
      · simp [hv, Memory.lookup]
    · rw [if_neg hlt]
      by_cases heq : addr = a
      · subst heq
        by_cases hv : v = Memory.unlisted
        · by_cases hx : addr = x
          · subst hx; simp [hv, below addr (Nat.le_refl _)]
          · simp [hv, Memory.lookup, hx]
        · simp [hv, Memory.lookup]
          split <;> rfl
      · rw [if_neg heq]
        simp only [Memory.lookup, hrest]
        by_cases hx : a = x
        · have : addr ≠ x := by omega
          simp [hx, this]
        · simp [hx]

/-- A lower bound or a smaller span is a weaker demand on the cells. -/
theorem Memory.cellsWf_mono {size size' lo lo' : Nat} {cs : List Host.Cell}
    (h : Memory.cellsWf size lo cs = true) (hlo : lo' ≤ lo) (hs : size ≤ size') :
    Memory.cellsWf size' lo' cs = true := by
  induction cs generalizing lo lo' with
  | nil => rfl
  | cons c rest ih =>
    obtain ⟨a, b⟩ := c
    simp only [Memory.cellsWf, Bool.and_eq_true, decide_eq_true_eq] at h ⊢
    exact ⟨⟨⟨by omega, by omega⟩, h.1.2⟩, ih h.2 (Nat.le_refl _)⟩

/-- Replacing a cell keeps the canonical form. -/
theorem Memory.putCell_wf {size lo : Nat} {cs : List Host.Cell} {addr : Nat} {v : Byte}
    (h : Memory.cellsWf size lo cs = true) (hlo : lo ≤ addr) (ha : addr < size) :
    Memory.cellsWf size lo (Memory.putCell addr v cs) = true := by
  induction cs generalizing lo with
  | nil => by_cases hv : v = Memory.unlisted <;> simp [Memory.putCell, Memory.cellsWf, hv, hlo, ha]
  | cons c rest ih =>
    obtain ⟨a, b⟩ := c
    have h0 := h
    simp only [Memory.cellsWf, Bool.and_eq_true, decide_eq_true_eq] at h
    unfold Memory.putCell
    by_cases hlt : addr < a
    · by_cases hv : v = Memory.unlisted
      · simpa [hlt, hv] using h0
      · simp only [hlt, hv, if_true, if_false, Memory.cellsWf, Bool.and_eq_true, decide_eq_true_eq]
        exact ⟨⟨⟨hlo, ha⟩, hv⟩, ⟨⟨⟨by omega, by omega⟩, h.1.2⟩, h.2⟩⟩
    · by_cases heq : addr = a
      · by_cases hv : v = Memory.unlisted
        · subst heq
          simp only [hlt, hv, if_true, if_false]
          simpa using Memory.cellsWf_mono h.2 (by omega) (Nat.le_refl _)
        · subst heq
          simp only [hlt, hv, if_true, if_false, Memory.cellsWf, Bool.and_eq_true,
            decide_eq_true_eq]
          exact ⟨⟨⟨hlo, ha⟩, hv⟩, h.2⟩
      · simp only [hlt, heq, if_false, Memory.cellsWf, Bool.and_eq_true, decide_eq_true_eq]
        exact ⟨h.1, ih h.2 (by omega)⟩

/-- Placing a byte keeps the canonical form. -/
theorem Memory.place_wf {m : Memory} (h : m.wf = true) (addr : Nat) (v : Byte) :
    (m.place addr v).wf = true :=
  Memory.putCell_wf (Memory.cellsWf_mono h (Nat.le_refl _) (Nat.le_max_left _ _))
    (Nat.zero_le _) (Nat.lt_of_lt_of_le (Nat.lt_succ_self _) (Nat.le_max_right _ _))

/-- Placing bytes keeps the canonical form. -/
theorem Memory.placeBytes_wf {m : Memory} (h : m.wf = true) (addr : Nat) (bytes : List Byte) :
    (m.placeBytes addr bytes).wf = true := by
  induction bytes generalizing m addr with
  | nil => exact h
  | cons b rest ih => exact ih (Memory.place_wf h addr b) (addr + 1)

@[simp] theorem Memory.empty_wf : Memory.empty.wf = true := rfl

/-- The span of any list of bytes is in canonical form. -/
@[simp] theorem Memory.ofBytes_wf (bytes : List Byte) : (Memory.ofBytes bytes).wf = true :=
  Memory.placeBytes_wf Memory.empty_wf 0 bytes

/-- The memory of the reset state is in canonical form. -/
@[simp] theorem State.reset_data_wf : State.reset.data.wf = true := rfl

/-- Read after place: the byte placed at its own address; elsewhere in the old span, what was there. -/
theorem Memory.read_place {m : Memory} (h : m.wf = true) (addr : Nat) (v : Byte) (x : Nat)
    (hx : x < m.size ∨ x = addr) :
    (m.place addr v).read x = if addr = x then some v else m.read x := by
  have hl := Memory.lookup_putCell (addr := addr) (v := v) h x
  by_cases he : addr = x
  · subst he
    simp [Memory.read, Memory.place, hl]
  · have hxs : x < m.size := by omega
    simp [Memory.read, Memory.place, hl, he, hxs]

theorem Memory.placeBytes_size (m : Memory) (addr : Nat) (bytes : List Byte) :
    (m.placeBytes addr bytes).size =
      if bytes = [] then m.size else max m.size (addr + bytes.length) := by
  induction bytes generalizing m addr with
  | nil => rfl
  | cons b rest ih =>
    simp only [Memory.placeBytes, ih, Memory.place]
    by_cases hr : rest = []
    · simp [hr]
    · have := List.length_pos_iff.2 hr
      simp only [hr, if_false, List.length_cons, reduceCtorEq]
      omega

/-- Read after placing a run of bytes that begins inside the span or at its end: the bytes placed at
their own addresses, and every other address as before. -/
theorem Memory.read_placeBytes {m : Memory} (h : m.wf = true) (addr : Nat) (bytes : List Byte)
    (ha : addr ≤ m.size) (x : Nat) :
    (m.placeBytes addr bytes).read x =
      if addr ≤ x ∧ x < addr + bytes.length then bytes[x - addr]? else m.read x := by
  induction bytes generalizing m addr with
  | nil =>
    simp [Memory.placeBytes]
  | cons b rest ih =>
    rw [Memory.placeBytes, ih (Memory.place_wf h addr b) (addr + 1) (Nat.le_max_right _ _)]
    by_cases he : x = addr
    · subst he
      have h1 : ¬ (x + 1 ≤ x ∧ x < x + 1 + rest.length) := by omega
      simp [Memory.read_place h x b x (by omega)]
    · by_cases hin : addr ≤ x ∧ x < addr + (b :: rest).length
      · have h1 : addr + 1 ≤ x ∧ x < addr + 1 + rest.length := by
          simp only [List.length_cons] at hin; omega
        have h2 : x - addr = (x - (addr + 1)) + 1 := by omega
        simp only [if_pos hin, if_pos h1, h2, List.getElem?_cons_succ]
      · have h1 : ¬ (addr + 1 ≤ x ∧ x < addr + 1 + rest.length) := by
          simp only [List.length_cons] at hin; omega
        rw [if_neg hin, if_neg h1]
        by_cases hs : x < m.size
        · rw [Memory.read_place h addr b x (Or.inl hs), if_neg (Ne.symm he)]
        · have hp : (m.place addr b).size ≤ x := by
            simp only [List.length_cons] at hin
            simp only [Memory.place]; omega
          rw [Memory.read_eq_none.2 hp, Memory.read_eq_none.2 (by omega)]

@[simp] theorem Memory.ofBytes_size (bytes : List Byte) :
    (Memory.ofBytes bytes).size = bytes.length := by
  rw [Memory.ofBytes, Memory.placeBytes_size]
  by_cases h : bytes = [] <;> simp [h, Memory.empty]

/-- The span of a list of bytes holds exactly those bytes (R31). -/
@[simp] theorem Memory.read_ofBytes (bytes : List Byte) (x : Nat) :
    (Memory.ofBytes bytes).read x = bytes[x]? := by
  by_cases hx : x < bytes.length
  · have h := Memory.read_placeBytes Memory.empty_wf 0 bytes (Nat.zero_le _) x
    rwa [if_pos (by omega), Nat.sub_zero] at h
  · rw [Memory.read_eq_none.2 (by simpa using hx), List.getElem?_eq_none (by omega)]

/-- `bytesFrom` reads consecutive addresses. -/
theorem Memory.bytesFrom_succ {m : Memory} {a n : Nat} {b : Byte} (h : m.read a = some b) :
    m.bytesFrom a (n + 1) = b :: m.bytesFrom (a + 1) n := by
  simp [Memory.bytesFrom, h]

theorem Memory.bytesFrom_end {m : Memory} {a n : Nat} (h : m.size ≤ a) : m.bytesFrom a n = [] := by
  cases n with
  | zero => rfl
  | succ n => simp [Memory.bytesFrom, Memory.read_eq_none.2 h]

/-- It reads n bytes, or as many as the span has from there. -/
theorem Memory.bytesFrom_length (m : Memory) (a n : Nat) :
    (m.bytesFrom a n).length = min n (m.size - a) := by
  induction n generalizing a with
  | zero => simp [Memory.bytesFrom]
  | succ n ih =>
    by_cases h : a < m.size
    · obtain ⟨b, hb⟩ := Memory.exists_read h
      rw [Memory.bytesFrom_succ hb, List.length_cons, ih]
      omega
    · rw [Memory.bytesFrom_end (by omega)]
      have : m.size - a = 0 := by omega
      simp [this]

theorem Memory.bytesFrom_getElem? {m : Memory} {a n j : Nat} (hj : j < n) :
    (m.bytesFrom a n)[j]? = m.read (a + j) := by
  induction n generalizing a j with
  | zero => omega
  | succ n ih =>
    by_cases h : a < m.size
    · obtain ⟨b, hb⟩ := Memory.exists_read h
      rw [Memory.bytesFrom_succ hb]
      cases j with
      | zero => simp [hb]
      | succ j =>
        rw [List.getElem?_cons_succ, ih (by omega)]
        congr 1
        omega
    · rw [Memory.bytesFrom_end (by omega), Memory.read_eq_none.2 (by omega)]
      rfl

end Sys2Proof.Machine
end

