-- ==== Sys2Proof/Laws/State.lean ====
section
/-!
SUPPORT. One lemma per field per update of the state, so that no later proof unfolds a record update.
-/

namespace Sys2Proof.Machine

variable (s : State)

@[simp] theorem State.setPx_px (p : Pixel) :
    (s.setPx p).px = p := rfl
@[simp] theorem State.setPx_cache (p : Pixel) :
    (s.setPx p).cache = s.cache := rfl
@[simp] theorem State.setPx_cursor (p : Pixel) :
    (s.setPx p).cursor = s.cursor := rfl
@[simp] theorem State.setPx_phase (p : Pixel) :
    (s.setPx p).phase = s.phase := rfl
@[simp] theorem State.setPx_errKind (p : Pixel) :
    (s.setPx p).errKind = s.errKind := rfl
@[simp] theorem State.setPx_out (p : Pixel) :
    (s.setPx p).out = s.out := rfl
@[simp] theorem State.setPx_data (p : Pixel) :
    (s.setPx p).data = s.data := rfl

@[simp] theorem State.cacheWrite_px (i : CacheIndex) (p : Pixel) :
    (s.cacheWrite i p).px = s.px := rfl
@[simp] theorem State.cacheWrite_cache (i : CacheIndex) (p : Pixel) :
    (s.cacheWrite i p).cache = s.cache.set i.toNat p (cacheIndex_lt i) := rfl
@[simp] theorem State.cacheWrite_cursor (i : CacheIndex) (p : Pixel) :
    (s.cacheWrite i p).cursor = s.cursor := rfl
@[simp] theorem State.cacheWrite_phase (i : CacheIndex) (p : Pixel) :
    (s.cacheWrite i p).phase = s.phase := rfl
@[simp] theorem State.cacheWrite_errKind (i : CacheIndex) (p : Pixel) :
    (s.cacheWrite i p).errKind = s.errKind := rfl
@[simp] theorem State.cacheWrite_out (i : CacheIndex) (p : Pixel) :
    (s.cacheWrite i p).out = s.out := rfl
@[simp] theorem State.cacheWrite_data (i : CacheIndex) (p : Pixel) :
    (s.cacheWrite i p).data = s.data := rfl

@[simp] theorem State.emit_px (p : Pixel) :
    (s.emit p).px = s.px := rfl
@[simp] theorem State.emit_cache (p : Pixel) :
    (s.emit p).cache = s.cache := rfl
@[simp] theorem State.emit_cursor (p : Pixel) :
    (s.emit p).cursor = s.cursor := rfl
@[simp] theorem State.emit_phase (p : Pixel) :
    (s.emit p).phase = s.phase := rfl
@[simp] theorem State.emit_errKind (p : Pixel) :
    (s.emit p).errKind = s.errKind := rfl
@[simp] theorem State.emit_out (p : Pixel) :
    (s.emit p).out = s.out ++ [p] := rfl
@[simp] theorem State.emit_data (p : Pixel) :
    (s.emit p).data = s.data := rfl

@[simp] theorem State.emitCopies_px (k : Nat) (p : Pixel) :
    (s.emitCopies k p).px = s.px := rfl
@[simp] theorem State.emitCopies_cache (k : Nat) (p : Pixel) :
    (s.emitCopies k p).cache = s.cache := rfl
@[simp] theorem State.emitCopies_cursor (k : Nat) (p : Pixel) :
    (s.emitCopies k p).cursor = s.cursor := rfl
@[simp] theorem State.emitCopies_phase (k : Nat) (p : Pixel) :
    (s.emitCopies k p).phase = s.phase := rfl
@[simp] theorem State.emitCopies_errKind (k : Nat) (p : Pixel) :
    (s.emitCopies k p).errKind = s.errKind := rfl
@[simp] theorem State.emitCopies_out (k : Nat) (p : Pixel) :
    (s.emitCopies k p).out = s.out ++ List.replicate k p := rfl
@[simp] theorem State.emitCopies_data (k : Nat) (p : Pixel) :
    (s.emitCopies k p).data = s.data := rfl

@[simp] theorem State.epilogue_px :
    (s.epilogue).px = s.px := rfl
@[simp] theorem State.epilogue_cache :
    (s.epilogue).cache = (s.cacheWrite (pixelHash s.px) s.px).cache := rfl
@[simp] theorem State.epilogue_cursor :
    (s.epilogue).cursor = s.cursor := rfl
@[simp] theorem State.epilogue_phase :
    (s.epilogue).phase = s.phase := rfl
@[simp] theorem State.epilogue_errKind :
    (s.epilogue).errKind = s.errKind := rfl
@[simp] theorem State.epilogue_out :
    (s.epilogue).out = s.out ++ [s.px] := rfl
@[simp] theorem State.epilogue_data :
    (s.epilogue).data = s.data := rfl

@[simp] theorem State.advance_px (len : Nat) :
    (s.advance len).px = s.px := rfl
@[simp] theorem State.advance_cache (len : Nat) :
    (s.advance len).cache = s.cache := rfl
@[simp] theorem State.advance_cursor (len : Nat) :
    (s.advance len).cursor = s.cursor + len := rfl
@[simp] theorem State.advance_phase (len : Nat) :
    (s.advance len).phase = s.phase := rfl
@[simp] theorem State.advance_errKind (len : Nat) :
    (s.advance len).errKind = s.errKind := rfl
@[simp] theorem State.advance_out (len : Nat) :
    (s.advance len).out = s.out := rfl
@[simp] theorem State.advance_data (len : Nat) :
    (s.advance len).data = s.data := rfl

@[simp] theorem State.finishChunk_px (len : Nat) :
    (s.finishChunk len).px = s.px := rfl
@[simp] theorem State.finishChunk_cache (len : Nat) :
    (s.finishChunk len).cache = (s.cacheWrite (pixelHash s.px) s.px).cache := rfl
@[simp] theorem State.finishChunk_cursor (len : Nat) :
    (s.finishChunk len).cursor = s.cursor + len := rfl
@[simp] theorem State.finishChunk_phase (len : Nat) :
    (s.finishChunk len).phase = s.phase := rfl
@[simp] theorem State.finishChunk_errKind (len : Nat) :
    (s.finishChunk len).errKind = s.errKind := rfl
@[simp] theorem State.finishChunk_out (len : Nat) :
    (s.finishChunk len).out = s.out ++ [s.px] := rfl
@[simp] theorem State.finishChunk_data (len : Nat) :
    (s.finishChunk len).data = s.data := rfl

@[simp] theorem State.takeError_px (k : ErrKind) :
    (s.takeError k).px = s.px := rfl
@[simp] theorem State.takeError_cache (k : ErrKind) :
    (s.takeError k).cache = s.cache := rfl
@[simp] theorem State.takeError_cursor (k : ErrKind) :
    (s.takeError k).cursor = s.cursor := rfl
@[simp] theorem State.takeError_phase (k : ErrKind) :
    (s.takeError k).phase = .error := rfl
@[simp] theorem State.takeError_errKind (k : ErrKind) :
    (s.takeError k).errKind = k := rfl
@[simp] theorem State.takeError_out (k : ErrKind) :
    (s.takeError k).out = s.out := rfl
@[simp] theorem State.takeError_data (k : ErrKind) :
    (s.takeError k).data = s.data := rfl

@[simp] theorem State.raiseTruncated_px :
    (s.raiseTruncated).px = s.px := rfl
@[simp] theorem State.raiseTruncated_cache :
    (s.raiseTruncated).cache = s.cache := rfl
@[simp] theorem State.raiseTruncated_cursor :
    (s.raiseTruncated).cursor = s.cursor := rfl
@[simp] theorem State.raiseTruncated_phase :
    (s.raiseTruncated).phase = .error := rfl
@[simp] theorem State.raiseTruncated_errKind :
    (s.raiseTruncated).errKind = .truncated := rfl
@[simp] theorem State.raiseTruncated_out :
    (s.raiseTruncated).out = s.out := rfl
@[simp] theorem State.raiseTruncated_data :
    (s.raiseTruncated).data = s.data := rfl

@[simp] theorem State.endDecode_px :
    (s.endDecode).px = s.px := rfl
@[simp] theorem State.endDecode_cache :
    (s.endDecode).cache = s.cache := rfl
@[simp] theorem State.endDecode_cursor :
    (s.endDecode).cursor = s.cursor := rfl
@[simp] theorem State.endDecode_phase :
    (s.endDecode).phase = .done := rfl
@[simp] theorem State.endDecode_errKind :
    (s.endDecode).errKind = s.errKind := rfl
@[simp] theorem State.endDecode_out :
    (s.endDecode).out = s.out := rfl
@[simp] theorem State.endDecode_data :
    (s.endDecode).data = s.data := rfl

@[simp] theorem State.placeAtCursor_px (bytes : List Byte) :
    (s.placeAtCursor bytes).px = s.px := rfl
@[simp] theorem State.placeAtCursor_cache (bytes : List Byte) :
    (s.placeAtCursor bytes).cache = s.cache := rfl
@[simp] theorem State.placeAtCursor_cursor (bytes : List Byte) :
    (s.placeAtCursor bytes).cursor = s.cursor := rfl
@[simp] theorem State.placeAtCursor_phase (bytes : List Byte) :
    (s.placeAtCursor bytes).phase = .running := rfl
@[simp] theorem State.placeAtCursor_errKind (bytes : List Byte) :
    (s.placeAtCursor bytes).errKind = .none := rfl
@[simp] theorem State.placeAtCursor_out (bytes : List Byte) :
    (s.placeAtCursor bytes).out = s.out := rfl
@[simp] theorem State.placeAtCursor_data (bytes : List Byte) :
    (s.placeAtCursor bytes).data = s.data.placeBytes s.cursor bytes := rfl

@[simp] theorem State.resetOn_px (span : Memory) : (State.resetOn span).px = State.resetPixel := rfl
@[simp] theorem State.resetOn_cache (span : Memory) : (State.resetOn span).cache = Vector.replicate 64 State.zeroPixel := rfl
@[simp] theorem State.resetOn_cursor (span : Memory) : (State.resetOn span).cursor = 0 := rfl
@[simp] theorem State.resetOn_phase (span : Memory) : (State.resetOn span).phase = .running := rfl
@[simp] theorem State.resetOn_errKind (span : Memory) : (State.resetOn span).errKind = .none := rfl
@[simp] theorem State.resetOn_out (span : Memory) : (State.resetOn span).out = [] := rfl
@[simp] theorem State.resetOn_data (span : Memory) : (State.resetOn span).data = span := rfl

end Sys2Proof.Machine
end

