-- ==== Sys2Proof/Laws/Ops.lean ====
section
/-!
SUPPORT. What the shared operations can do, said once: the cache read after a write, the epilogue,
and the bounds check.
-/

namespace Sys2Proof.Machine

/-- A slot reads what was last written to it; every other slot is left alone (R16). -/
theorem State.cacheRead_cacheWrite (s : State) (i j : CacheIndex) (p : Pixel) :
    (s.cacheWrite i p).cacheRead j = if i = j then p else s.cacheRead j := by
  simp [State.cacheRead, State.cacheWrite, Vector.getElem_set, BitVec.toNat_inj]

@[simp] theorem State.cacheRead_setPx (s : State) (p : Pixel) (j : CacheIndex) :
    (s.setPx p).cacheRead j = s.cacheRead j := rfl

@[simp] theorem State.cacheRead_emitCopies (s : State) (k : Nat) (p : Pixel) (j : CacheIndex) :
    (s.emitCopies k p).cacheRead j = s.cacheRead j := rfl

/-- After a chunk's end its slot holds `px` and every other slot is as it was (R17, R70). -/
theorem State.cacheRead_finishChunk (s : State) (len : Nat) (j : CacheIndex) :
    (s.finishChunk len).cacheRead j = if pixelHash s.px = j then s.px else s.cacheRead j :=
  State.cacheRead_cacheWrite s (pixelHash s.px) j s.px

/-- After reset every slot holds the zero pixel (R29). -/
@[simp] theorem State.cacheRead_resetOn (span : Memory) (j : CacheIndex) :
    (State.resetOn span).cacheRead j = State.zeroPixel := by
  simp [State.cacheRead]

/-- A bounds-checked chunk always answers a next state: the truncated one where it does not fit, its
own where it does (R68). -/
theorem State.boundsChecked_next {s t next : State} {len : Nat}
    (h : s.boundsChecked len next = .next t) :
    (s.data.size < s.cursor + len ∧ t = s.raiseTruncated) ∨
      (s.cursor + len ≤ s.data.size ∧ t = next) := by
  unfold State.boundsChecked at h
  split at h
  · exact .inl ⟨‹_›, by simpa using h.symm⟩
  · exact .inr ⟨by omega, by simpa using h.symm⟩

theorem State.boundsChecked_fits {s : State} {len : Nat} (next : State)
    (h : s.cursor + len ≤ s.data.size) : s.boundsChecked len next = .next next := by
  rw [State.boundsChecked, if_neg (by omega)]

theorem State.boundsChecked_truncated {s : State} {len : Nat} (next : State)
    (h : s.data.size < s.cursor + len) : s.boundsChecked len next = .next s.raiseTruncated := by
  rw [State.boundsChecked, if_pos h]

end Sys2Proof.Machine
end

