-- ==== Sys2Proof/Laws/PerInstr.lean ====
section
/-!
SUPPORT. The per-instruction family `Tagged`: a well-formed chunk is encoded as a tag byte of its own
kind and as many bytes as its kind has (30_encoding.md R48, R49).
-/

namespace Sys2Proof.Laws.Tagged

/-- The encoding of a well-formed chunk begins with a tag of its kind and has its kind's length. -/
def Statement (i : Instr) : Prop :=
  i.wf = true → ∃ tag tl, encode i = tag :: tl ∧ tagKind tag = i.kind ∧
    tl.length + 1 = kindLength i.kind

theorem rgba (r g b a : Byte) : Statement (.rgba r g b a) :=
  fun _ => ⟨_, _, rfl, by simp [tagKind, Instr.kind], rfl⟩

theorem rgb (r g b : Byte) : Statement (.rgb r g b) :=
  fun _ => ⟨_, _, rfl, by simp [tagKind, Instr.kind], rfl⟩

/-- Every 6-bit index makes an INDEX tag. -/
theorem index_tag : ∀ i : Fin 64, tagKind (0b00#2 ++ BitVec.ofNat 6 i.val) = .index := by decide

theorem index (i : CacheIndex) : Statement (.index i) := by
  refine fun _ => ⟨_, _, rfl, ?_, rfl⟩
  simpa [Instr.kind] using index_tag ⟨i.toNat, i.isLt⟩

/-- Every three 2-bit fields make a DIFF tag. -/
theorem diff_tag : ∀ x y z : Fin 4,
    tagKind (0b01#2 ++ BitVec.ofNat 2 x.val ++ BitVec.ofNat 2 y.val ++ BitVec.ofNat 2 z.val) =
      .diff := by decide

theorem diff (dr dg db : Int) : Statement (.diff dr dg db) := by
  refine fun _ => ⟨_, _, rfl, ?_, rfl⟩
  simpa [Instr.kind] using diff_tag ⟨(biased 2 2 dr).toNat, (biased 2 2 dr).isLt⟩
    ⟨(biased 2 2 dg).toNat, (biased 2 2 dg).isLt⟩ ⟨(biased 2 2 db).toNat, (biased 2 2 db).isLt⟩

/-- Every 6-bit field makes a LUMA tag. -/
theorem luma_tag : ∀ x : Fin 64, tagKind (0b10#2 ++ BitVec.ofNat 6 x.val) = .luma := by decide

theorem luma (dg drDg dbDg : Int) : Statement (.luma dg drDg dbDg) := by
  refine fun _ => ⟨_, _, rfl, ?_, rfl⟩
  simpa [Instr.kind] using luma_tag ⟨(biased 6 32 dg).toNat, (biased 6 32 dg).isLt⟩

/-- The fields 0..61 make a RUN tag; 62 and 63 would be the two exact values (R53). -/
theorem run_tag : ∀ k : Fin 62, tagKind (0b11#2 ++ BitVec.ofNat 6 k.val) = .run := by decide

theorem run (k : Nat) : Statement (.run k) := by
  intro h
  have hk : k < 62 := by
    have : k ≤ 61 := of_decide_eq_true h
    omega
  exact ⟨_, _, rfl, run_tag ⟨k, hk⟩, rfl⟩

end Sys2Proof.Laws.Tagged
end

