-- ==== Sys2Proof/Laws/Step.lean ====
section
/-!
SUPPORT. What the fetch, a chunk and a step can do, said once.
-/

namespace Sys2Proof.Machine

/-- The effect of a chunk on the state before its epilogue and cursor advance. -/
def effectOf (i : Instr) (s : State) : State :=
  match i with
  | .rgba r g b a => s.setPx { r := r, g := g, b := b, a := a }
  | .rgb r g b => s.setPx (withColour s.px r g b)
  | .index slot => s.setPx (s.cacheRead slot)
  | .diff dr dg db => s.setPx (withDeltas s.px dr dg db)
  | .luma dg drDg dbDg => s.setPx (withDeltas s.px (drDg + dg) dg (dbDg + dg))
  | .run k => s.emitCopies k s.px

/-- A chunk that fits completes: its effect, the epilogue, the advance by its length (R72). -/
theorem exec_fits {i : Instr} {s : State} (h : s.cursor + kindLength i.kind ≤ s.data.size) :
    exec i s = .next ((effectOf i s).finishChunk (kindLength i.kind)) := by
  cases i <;> first
    | exact State.boundsChecked_fits _ h
    | rfl

/-- A chunk always answers a next state: the truncated one or the completed one. -/
theorem exec_cases (i : Instr) (s : State) :
    (s.data.size < s.cursor + kindLength i.kind ∧ exec i s = .next s.raiseTruncated) ∨
      exec i s = .next ((effectOf i s).finishChunk (kindLength i.kind)) := by
  by_cases h : s.cursor + kindLength i.kind ≤ s.data.size
  · exact .inr (exec_fits h)
  · have h : s.data.size < s.cursor + kindLength i.kind := by omega
    cases i with
    | index => exact .inr rfl
    | diff => exact .inr rfl
    | run => exact .inr rfl
    | rgba => exact .inl ⟨h, State.boundsChecked_truncated _ h⟩
    | rgb => exact .inl ⟨h, State.boundsChecked_truncated _ h⟩
    | luma => exact .inl ⟨h, State.boundsChecked_truncated _ h⟩

/-- The bytes at a cursor inside the span begin with the tag read there. -/
theorem bytesFrom_at_tag {m : Memory} {c : Nat} {tag : Byte} (h : m.read c = some tag) :
    m.bytesFrom c Config.maxChunkLen = tag :: m.bytesFrom (c + 1) 4 :=
  Memory.bytesFrom_succ h

/-- The fetch of a running state whose tag is there: the truncation error exactly when the chunk runs
past the span, else the chunk the bytes decode to (R66 to R68). -/
theorem fetchChunk_at_tag {s : State} {tag : Byte} (hp : s.phase = .running)
    (ht : s.data.read s.cursor = some tag) :
    (s.data.size < s.cursor + chunkLength tag ∧ fetchChunk s = .inl (.next s.raiseTruncated)) ∨
      (s.cursor + chunkLength tag ≤ s.data.size ∧ ∃ i rest,
        decode (s.data.bytesFrom s.cursor Config.maxChunkLen) = .ok (i, rest) ∧
        i.kind = tagKind tag ∧ fetchChunk s = .inr i) := by
  have hc : s.cursor < s.data.size := (Memory.read_eq_some.1 ht).1
  have hlen := Memory.bytesFrom_length s.data (s.cursor + 1) 4
  have hmax := chunkLength_le_max tag
  simp only [Config.maxChunkLen] at hmax
  have hne : s.cursor ≠ s.data.size := by omega
  simp only [fetchChunk, hp, if_neg hne, bytesFrom_at_tag ht]
  cases hd : decode (tag :: s.data.bytesFrom (s.cursor + 1) 4) with
  | error e =>
    obtain ⟨hlt, rfl⟩ := decode_cons_error.1 hd
    exact .inl ⟨by omega, rfl⟩
  | ok v =>
    obtain ⟨i, rest⟩ := v
    obtain ⟨hk, hle, -⟩ := decode_cons_ok hd
    exact .inr ⟨by omega, i, rest, rfl, hk, rfl⟩

/-- Everything a step that answers a next state can do (R72): end the decode, raise the truncation
error, or complete the chunk its bytes decode to. -/
theorem step_cases {s t : State} (h : step s = .next t) :
    s.phase = .running ∧
      ((s.cursor = s.data.size ∧ t = s.endDecode) ∨
       ∃ tag, s.data.read s.cursor = some tag ∧
        ((s.data.size < s.cursor + chunkLength tag ∧ t = s.raiseTruncated) ∨
         (s.cursor + chunkLength tag ≤ s.data.size ∧ ∃ i rest,
           decode (s.data.bytesFrom s.cursor Config.maxChunkLen) = .ok (i, rest) ∧
           i.kind = tagKind tag ∧ t = (effectOf i s).finishChunk (chunkLength tag)))) := by
  cases hp : s.phase with
  | done => simp [step, fetchChunk, hp] at h
  | error => simp [step, fetchChunk, hp] at h
  | running =>
    refine ⟨rfl, ?_⟩
    by_cases hc : s.cursor = s.data.size
    · exact .inl ⟨hc, by simpa [step, fetchChunk, hp, hc] using h.symm⟩
    · by_cases hlt : s.cursor < s.data.size
      · obtain ⟨tag, ht⟩ := Memory.exists_read hlt
        refine .inr ⟨tag, ht, ?_⟩
        obtain ⟨hn, hf⟩ | ⟨hn, i, rest, hd, hk, hf⟩ := fetchChunk_at_tag hp ht
        · exact .inl ⟨hn, by simpa [step, hf] using h.symm⟩
        · refine .inr ⟨hn, i, rest, hd, hk, ?_⟩
          have hfit : s.cursor + kindLength i.kind ≤ s.data.size := by rw [hk]; exact hn
          have := exec_fits hfit
          simp only [step, hf, this, hk] at h
          simpa [chunkLength] using h.symm
      · have hb := Memory.bytesFrom_end (n := Config.maxChunkLen)
          (show s.data.size ≤ s.cursor by omega)
        simp [step, fetchChunk, hp, hc, hb, decode] at h

end Sys2Proof.Machine
end

