-- ==== Sys2Proof/Tests/Slice0.lean ====
section
/-!
SUPPORT. Checks of the model on the spec's own words and vectors (95_test_vectors.md), and a witness
for the hypotheses of each statement that has any.
-/

namespace Sys2Proof.Tests

open Sys2Proof Sys2Proof.Machine

/-- The state after `reset(data, N)` on these bytes. -/
def onSpan (bytes : List Byte) : State := State.resetOn (Memory.ofBytes bytes)

/-- The next state of an outcome, if it is one. -/
def nextOf : Host.Outcome State Fault Refusal → Option State
  | .next s => some s
  | .fault _ => none
  | .refused _ => none

/-- One field of the state after a step. -/
def afterStep {α : Type} (field : State → α) (s : State) : Option α := (nextOf (step s)).map field

/-! ### Well-formedness: an ill-formed term for each check (R61) -/

theorem test_wf_rejects_diff_red : (Instr.diff 2 0 0).wf = false := by decide
theorem test_wf_rejects_diff_green : (Instr.diff 0 (-3) 0).wf = false := by decide
theorem test_wf_rejects_diff_blue : (Instr.diff 0 0 2).wf = false := by decide
theorem test_wf_rejects_luma_green : (Instr.luma 32 0 0).wf = false := by decide
theorem test_wf_rejects_luma_green_low : (Instr.luma (-33) 0 0).wf = false := by decide
theorem test_wf_rejects_luma_red : (Instr.luma 0 (-9) 0).wf = false := by decide
theorem test_wf_rejects_luma_blue : (Instr.luma 0 0 8).wf = false := by decide
theorem test_wf_rejects_run : (Instr.run 62).wf = false := by decide
theorem test_wf_accepts_bounds :
    (Instr.diff (-2) 1 (-2)).wf = true ∧ (Instr.luma 31 (-8) 7).wf = true ∧
    (Instr.luma (-32) 7 (-8)).wf = true ∧ (Instr.run 61).wf = true := by decide

/-! ### Decoding: words written out bit by bit from R50 to R55 -/

/-- R55; byte 0 is 1111 1111, then r, g, b, a. -/
theorem test_decode_rgba :
    decode [0b11111111, 1, 2, 3, 4, 9] = .ok (.rgba 1 2 3 4, [9]) := rfl
/-- R54; byte 0 is 1111 1110, then r, g, b; an operand equal to a tag stays an operand (L-6). -/
theorem test_decode_rgb : decode [0b11111110, 0xFF, 0xFE, 0xC0] = .ok (.rgb 0xFF 0xFE 0xC0, []) := rfl
/-- R50; 00 iiiiii with i = 110101. -/
theorem test_decode_index : decode [0b00110101] = .ok (.index 53, []) := rfl
/-- R51; 01 dr+2 dg+2 db+2 with fields 00, 11, 10 (D-4). -/
theorem test_decode_diff : decode [0b01001110] = .ok (.diff (-2) 1 0, []) := rfl
/-- R52; 10 dg+32, then the nibbles 1111 and 0000 (D-9). -/
theorem test_decode_luma : decode [0b10111111, 0b11110000] = .ok (.luma 31 7 (-8), []) := rfl
/-- R53; 11 kkkkkk with k = 111101, the longest run (U-2). -/
theorem test_decode_run : decode [0b11111101] = .ok (.run 61, []) := rfl
/-- L-7, L-8, D-10: chunks cut short are refused by name, and so is no byte at all. -/
theorem test_decode_truncated :
    decode [0xFF, 1, 2, 3] = .error (.truncated 0xFF) ∧
    decode [0xFE, 1, 2] = .error (.truncated 0xFE) ∧
    decode [0x80] = .error (.truncated 0x80) ∧ decode [] = .error .noTag := ⟨rfl, rfl, rfl, rfl⟩
/-- R61, the lines of programs P1 and P4. -/
theorem test_encode_lines :
    encode (.luma 4 (-1) 2) = [0xA4, 0x7A] ∧ encode (.luma (-32) (-8) 7) = [0x80, 0x0F] ∧
    encode (.diff 1 1 1) = [0x7F] ∧ encode (.diff (-2) (-2) (-2)) = [0x40] ∧
    encode (.run 2) = [0xC2] ∧ encode (.index 9) = [0x09] ∧
    encode (.rgb 9 9 9) = [0xFE, 9, 9, 9] ∧ encode (.rgba 0 0 0 7) = [0xFF, 0, 0, 0, 7] := by decide
/-- The table's numbering: the tag is bits 7..0, `nb` bits 15..8. -/
theorem test_decodeTableWord :
    decodeTableWord 16 0x7AA4 = some (.luma 4 (-1) 2) ∧ decodeTableWord 8 0xFF = some (.rgba 0 0 0 0) ∧
    decodeTableWord 40 0xFF1E140AFF = some (.rgba 10 20 30 255) := by decide

/-! ### One step each, on the vectors of 95_test_vectors.md -/

/-- L-1: the pixel and its slot, 9. -/
theorem test_rgba_L1 :
    afterStep (fun t => (t.px, t.cacheRead 9, t.out, t.cursor)) (onSpan [0xFF, 0x0A, 0x14, 0x1E, 0xFF]) =
      some (⟨10, 20, 30, 255⟩, ⟨10, 20, 30, 255⟩, [⟨10, 20, 30, 255⟩], 5) := by decide
/-- L-7: truncated, nothing else changes. -/
theorem test_rgba_L7 :
    afterStep id (onSpan [0xFF, 1, 2, 3]) =
      some { onSpan [0xFF, 1, 2, 3] with phase := .error, errKind := .truncated } := by decide
/-- L-5, second chunk: alpha 7 is kept and the slot is 43. -/
theorem test_rgb_L5 :
    afterStep (fun t => (t.px, t.cacheRead 43, t.cursor))
      { onSpan [0xFF, 0, 0, 0, 7, 0xFE, 5, 6, 7] with px := ⟨0, 0, 0, 7⟩, cursor := 5 } =
      some (⟨5, 6, 7, 7⟩, ⟨5, 6, 7, 7⟩, 9) := by decide
/-- L-8: truncated. -/
theorem test_rgb_L8 :
    afterStep (fun t => (t.observe, t.px)) (onSpan [0xFE, 1, 2]) =
      some (⟨[], .error, .truncated, 0⟩, ⟨0, 0, 0, 255⟩) := by decide
/-- I-4: the first chunk INDEX 53 returns the zero pixel. -/
theorem test_index_I4 :
    afterStep (fun t => (t.px, t.out)) (onSpan [0x35]) = some (⟨0, 0, 0, 0⟩, [⟨0, 0, 0, 0⟩]) := by
  decide
/-- I-7, last chunk: a collision replaced the pixel of slot 53. -/
theorem test_index_I7 :
    afterStep (fun t => t.px)
      (((onSpan [0x35]).cacheWrite 53 ⟨0, 0, 0, 255⟩).cacheWrite 53 ⟨64, 0, 0, 255⟩) =
      some ⟨64, 0, 0, 255⟩ := by decide
/-- D-4: mixed deltas, slot 52. -/
theorem test_diff_D4 :
    afterStep (fun t => (t.px, t.cacheRead 52)) (onSpan [0x4E]) =
      some (⟨254, 1, 0, 255⟩, ⟨254, 1, 0, 255⟩) := by decide
/-- D-5, second chunk: every channel wraps up, alpha 9 is kept, slot 35. -/
theorem test_diff_D5 :
    afterStep (fun t => (t.px, t.cacheRead 35))
      { onSpan [0x7F] with px := ⟨255, 255, 255, 9⟩ } =
      some (⟨0, 0, 0, 9⟩, ⟨0, 0, 0, 9⟩) := by decide
/-- D-9, second chunk: red and blue wrap, the slot is 0. -/
theorem test_luma_D9 :
    afterStep (fun t => (t.px, t.cacheRead 0, t.cursor))
      { onSpan [0xBF, 0xF0] with px := ⟨250, 5, 250, 255⟩ } =
      some (⟨32, 36, 17, 255⟩, ⟨32, 36, 17, 255⟩, 2) := by decide
/-- D-10: the tag is the last byte. -/
theorem test_luma_D10 :
    afterStep (fun t => t.observe) (onSpan [0x80]) = some ⟨[], .error, .truncated, 0⟩ := by decide
/-- U-3, second chunk: five more copies and one store, slot 14. -/
theorem test_run_U3 :
    afterStep (fun t => (t.px, t.cacheRead 14, t.out))
      { onSpan [0xC4] with px := ⟨1, 2, 3, 4⟩, out := [⟨1, 2, 3, 4⟩] } =
      some (⟨1, 2, 3, 4⟩, ⟨1, 2, 3, 4⟩, List.replicate 6 ⟨1, 2, 3, 4⟩) := by decide
/-- U-2: the longest run, 62 pixels. -/
theorem test_run_U2 :
    afterStep (fun t => (t.out.length, t.cacheRead 53)) (onSpan [0xFD]) =
      some (62, ⟨0, 0, 0, 255⟩) := by decide
/-- T-1 and E2: the empty span ends in `DONE` at the first step. -/
theorem test_empty_span :
    afterStep id State.reset = some { State.reset with phase := .done } := by decide
/-- T-2: no step in `DONE` or in `ERROR`. -/
theorem test_no_step_after_end :
    step { onSpan [0xC0] with phase := .done } = .fault .noStepInDone ∧
    step { onSpan [0xC0] with phase := .error, errKind := .truncated } = .fault .noStepInError :=
  ⟨rfl, rfl⟩
/-- Section 2.1: the hash vectors, the colliding pairs among them. -/
theorem test_hash_vectors :
    ([⟨0, 0, 0, 0⟩, ⟨0, 0, 0, 255⟩, ⟨10, 20, 30, 255⟩, ⟨1, 2, 3, 255⟩, ⟨254, 254, 254, 255⟩,
      ⟨64, 0, 0, 255⟩, ⟨255, 255, 255, 255⟩, ⟨225, 233, 240, 0⟩, ⟨1, 2, 3, 4⟩, ⟨0, 0, 0, 7⟩].map
      pixelHash) = [0, 53, 9, 23, 23, 53, 38, 0, 14, 13] := by decide
/-- R39: r is the lowest byte of the packed word. -/
theorem test_pack : packPixel ⟨0x11, 0x22, 0x33, 0x44⟩ = 0x44332211 := by decide
/-- A byte placed and taken back leaves equal data: the unlisted value is not listed. -/
theorem test_place_canonical :
    ((Memory.ofBytes [5, 0, 7]).place 2 0) = { Memory.ofBytes [5] with size := 3 } := by decide
/-- The placed word is the first instruction to run after reset. -/
theorem test_withFetchWord :
    afterStep (fun t => (t.px, t.cursor)) (State.reset.withFetchWord 32 0x030201FE) =
      some (⟨1, 2, 3, 255⟩, 4) := by decide

/-! ### Witnesses: concrete states and operands that meet each statement's hypotheses together -/

/-- The zero-cache states after reset meet the invariant; here at one span, for the witnesses. -/
theorem inv_onSpan_one (b : Byte) : (onSpan [b]).Inv :=
  ⟨Memory.ofBytes_wf [b], ⟨⟨fun _ => nofun, fun _ => rfl⟩, nofun⟩,
    ⟨Nat.zero_le _, (fun h => nomatch h), (fun h => nomatch h)⟩,
    State.cacheRead_resetOn _, rfl, ⟨Nat.zero_le _, Nat.zero_le _⟩⟩

/-- The state after RUN 1 on the span C0 35 (I-6), which meets the invariant too. -/
def afterRun : State := (onSpan [0xC0, 0x35]).finishChunk 1

theorem inv_afterRun : afterRun.Inv :=
  ⟨Memory.ofBytes_wf _, ⟨⟨fun _ => nofun, fun _ => rfl⟩, nofun⟩,
    ⟨by decide, nofun, nofun⟩,
    (by decide : ∀ j : CacheIndex, afterRun.cacheRead j = lastWithHash j afterRun.out), rfl,
    (by decide : afterRun.cursor ≤ 5 * 1 ∧ 1 ≤ 62 * afterRun.cursor)⟩

theorem witness_EncodedChunkDecodesToItself :
    (Instr.rgba 255 0 255 0).wf = true ∧ (Instr.rgb 255 254 0).wf = true ∧
    (Instr.index 63).wf = true ∧ (Instr.diff (-2) 1 0).wf = true ∧
    (Instr.luma (-32) 7 (-8)).wf = true ∧ (Instr.run 61).wf = true := by decide
theorem witness_DecodedChunkEncodesToItsBytes : decode [0xBF, 0xF0, 7] = .ok (.luma 31 7 (-8), [7]) := rfl
theorem witness_TableWordDecodes : (Instr.luma 31 7 (-8)).wf = true := by decide
theorem witness_HashIsSameInEveryWidth : 6 ≤ 6 ∧ 6 ≤ 8 ∧ 6 ≤ 32 := by decide
theorem witness_ChannelSumIsSameInEveryWidth : 8 ≤ 8 ∧ 8 ≤ 16 := by decide
theorem witness_DeltaLanesAreSeparate :
    (⟨7, 8, 9, 1⟩ : Pixel).r = (⟨7, 0, 9, 2⟩ : Pixel).r ∧ (⟨7, 8, 9, 1⟩ : Pixel).g = (⟨0, 8, 0, 2⟩ : Pixel).g ∧
    (⟨7, 8, 9, 1⟩ : Pixel).b = (⟨7, 0, 9, 2⟩ : Pixel).b ∧ (-2 : Int) = -2 := by decide
theorem witness_SpansThatReadTheSameAreEqual :
    (Memory.ofBytes [1, 0, 2]).wf = true ∧ ((Memory.ofBytes [1, 9, 2]).place 1 0).wf = true ∧
    (Memory.ofBytes [1, 0, 2]).size = ((Memory.ofBytes [1, 9, 2]).place 1 0).size ∧
    ∀ a, (Memory.ofBytes [1, 0, 2]).read a = ((Memory.ofBytes [1, 9, 2]).place 1 0).read a :=
  ⟨by decide, by decide, by decide, fun _ => rfl⟩
/-- Each literal and LUMA exactly at the end of the span. -/
theorem witness_completes_at_the_end :
    (onSpan [0xFF, 1, 2, 3, 4]).cursor + 5 ≤ (onSpan [0xFF, 1, 2, 3, 4]).data.size ∧
    (onSpan [0xFE, 1, 2, 3]).cursor + 4 ≤ (onSpan [0xFE, 1, 2, 3]).data.size ∧
    (onSpan [0x80, 0]).cursor + 2 ≤ (onSpan [0x80, 0]).data.size := by decide
theorem witness_RgbaCompletes :
    (onSpan [0xFF, 1, 2, 3, 4]).cursor + 5 ≤ (onSpan [0xFF, 1, 2, 3, 4]).data.size := by decide
theorem witness_RgbCompletes :
    (onSpan [0xFE, 1, 2, 3]).cursor + 4 ≤ (onSpan [0xFE, 1, 2, 3]).data.size := by decide
theorem witness_LumaCompletes :
    (onSpan [0x80, 0]).cursor + 2 ≤ (onSpan [0x80, 0]).data.size := by decide
/-- One byte short, for each of the three clauses. -/
theorem witness_MultiByteChunksTrapWhereTheyDoNotFit :
    ((Instr.rgba 1 2 3 0).kind = .rgba ∧
      (onSpan [0xFF, 1, 2, 3]).data.size < (onSpan [0xFF, 1, 2, 3]).cursor + 5) ∧
    ((Instr.rgb 1 2 0).kind = .rgb ∧
      (onSpan [0xFE, 1, 2]).data.size < (onSpan [0xFE, 1, 2]).cursor + 4) ∧
    ((Instr.luma 0 0 0).kind = .luma ∧ (onSpan [0xA0]).data.size < (onSpan [0xA0]).cursor + 2) := by
  decide
/-- A chunk that completes and a chunk that is truncated. -/
theorem witness_ChunkFrame :
    (∃ t, exec (.run 3) (onSpan [0xC3]) = .next t) ∧
    (∃ t, exec (.rgb 1 2 3) (onSpan [0xFE]) = .next t) := ⟨⟨_, rfl⟩, ⟨_, rfl⟩⟩
theorem witness_ChannelsEachChunkKeeps :
    (∃ t, exec (.rgb 1 2 3) (onSpan [0xFE, 1, 2, 3]) = .next t) ∧
    (∃ t, exec (.diff 1 1 1) (onSpan [0x7F]) = .next t) ∧
    (∃ t, exec (.luma 1 1 1) (onSpan [0xA1, 0x99]) = .next t) ∧
    (∃ t, exec (.run 0) (onSpan [0xC0]) = .next t) := ⟨⟨_, rfl⟩, ⟨_, rfl⟩, ⟨_, rfl⟩, ⟨_, rfl⟩⟩
theorem witness_NoChunkReadsStatus :
    (onSpan [0x80, 0]).cursor + kindLength (Instr.luma 0 0 0).kind ≤ (onSpan [0x80, 0]).data.size ∧
    ∃ t, exec (.luma 0 0 0) (onSpan [0x80, 0]) = .next t := ⟨by decide, ⟨_, rfl⟩⟩
theorem witness_ThreeWaysToRepeatThePixel :
    (onSpan [0xA0, 0x88]).cursor + 2 ≤ (onSpan [0xA0, 0x88]).data.size := by decide
theorem witness_StepRunsDecodedChunk :
    (onSpan [0xFD]).phase = .running ∧ (onSpan [0xFD]).cursor < (onSpan [0xFD]).data.size ∧
    decode ((onSpan [0xFD]).data.bytesFrom (onSpan [0xFD]).cursor 5) = .ok (.run 61, []) :=
  ⟨rfl, by decide, rfl⟩
theorem witness_StepRunsEncodedChunk :
    (onSpan [0xA4, 0x7A, 9]).phase = .running ∧ (Instr.luma 4 (-1) 2).wf = true ∧
    ∀ k b, (encode (.luma 4 (-1) 2))[k]? = some b →
      (onSpan [0xA4, 0x7A, 9]).data.read ((onSpan [0xA4, 0x7A, 9]).cursor + k) = some b := by
  refine ⟨rfl, by decide, fun k b h => ?_⟩
  match k, h with
  | 0, h => exact h
  | 1, h => exact h
theorem witness_FetchWordIsRunNext :
    State.reset.data.wf = true ∧ State.reset.cursor ≤ State.reset.data.size := by decide
theorem witness_StepExistsExactlyWhileRunning :
    (onSpan [0xC0]).cursor ≤ (onSpan [0xC0]).data.size ∧ (onSpan [0xC0]).phase = .running ∧
    State.reset.endDecode.cursor ≤ State.reset.endDecode.data.size ∧
    State.reset.endDecode.phase ≠ .running := by decide
/-- At the end of the span, and one byte before it. -/
theorem witness_EndOfSpanEndsDecode :
    ((onSpan []).phase = .running ∧ (onSpan []).cursor = (onSpan []).data.size) ∧
    ((onSpan [0xC0]).phase = .running ∧ (onSpan [0xC0]).cursor < (onSpan [0xC0]).data.size) := by
  decide
theorem witness_TruncatedChunkRaisesError :
    (onSpan [0xFF, 1, 2, 3]).phase = .running ∧
    (onSpan [0xFF, 1, 2, 3]).data.read (onSpan [0xFF, 1, 2, 3]).cursor = some 0xFF ∧
    (onSpan [0xFF, 1, 2, 3]).data.size < (onSpan [0xFF, 1, 2, 3]).cursor + Spec.length 0xFF := by decide
theorem witness_OnlyTruncationIsAnError :
    ∃ t, step (onSpan [0x80]) = .next t ∧ t.phase = .error := ⟨_, rfl, rfl⟩
theorem witness_StepIsThePseudocode :
    (onSpan [0x35]).phase = .running ∧ (onSpan [0x35]).cursor ≤ (onSpan [0x35]).data.size := by decide
/-- Truncated by one byte, and exactly fitting. -/
theorem witness_RgbaStep :
    ((onSpan [0xFF, 1, 2, 3]).data.read 0 = some 0xFF ∧ (onSpan [0xFF, 1, 2, 3]).data.size < 0 + 5) ∧
    ((onSpan [0xFF, 1, 2, 3, 4]).phase = .running ∧ (onSpan [0xFF, 1, 2, 3, 4]).data.read 0 = some 0xFF ∧
      (onSpan [0xFF, 1, 2, 3, 4]).data.read 1 = some 1 ∧ (onSpan [0xFF, 1, 2, 3, 4]).data.read 2 = some 2 ∧
      (onSpan [0xFF, 1, 2, 3, 4]).data.read 3 = some 3 ∧ (onSpan [0xFF, 1, 2, 3, 4]).data.read 4 = some 4) := by
  decide
theorem witness_RgbStep :
    ((onSpan [0xFE, 1, 2]).data.read 0 = some 0xFE ∧ (onSpan [0xFE, 1, 2]).data.size < 0 + 4) ∧
    ((onSpan [0xFE, 1, 2, 3]).phase = .running ∧ (onSpan [0xFE, 1, 2, 3]).data.read 0 = some 0xFE ∧
      (onSpan [0xFE, 1, 2, 3]).data.read 1 = some 1 ∧ (onSpan [0xFE, 1, 2, 3]).data.read 2 = some 2 ∧
      (onSpan [0xFE, 1, 2, 3]).data.read 3 = some 3) := by
  decide
/-- The lowest and the highest INDEX tag. -/
theorem witness_IndexStep :
    ((onSpan [0x00]).phase = .running ∧ (onSpan [0x00]).data.read 0 = some 0x00 ∧ Spec.fld 0x00 6 2 = 0) ∧
    ((onSpan [0x3F]).phase = .running ∧ (onSpan [0x3F]).data.read 0 = some 0x3F ∧ Spec.fld 0x3F 6 2 = 0) := by
  decide
/-- The lowest and the highest DIFF tag. -/
theorem witness_DiffStep :
    ((onSpan [0x40]).data.read 0 = some 0x40 ∧ Spec.fld 0x40 6 2 = 1) ∧
    ((onSpan [0x7F]).data.read 0 = some 0x7F ∧ Spec.fld 0x7F 6 2 = 1) := by decide
/-- The lowest LUMA tag alone, the highest with its second byte. -/
theorem witness_LumaStep :
    ((onSpan [0x80]).data.read 0 = some 0x80 ∧ Spec.fld 0x80 6 2 = 2 ∧ (onSpan [0x80]).data.size < 0 + 2) ∧
    ((onSpan [0xBF, 0xFF]).data.read 0 = some 0xBF ∧ Spec.fld 0xBF 6 2 = 2 ∧
      (onSpan [0xBF, 0xFF]).data.read 1 = some 0xFF) := by decide
/-- The lowest and the highest RUN tag. -/
theorem witness_RunStep :
    ((onSpan [0xC0]).data.read 0 = some 0xC0 ∧ Spec.fld 0xC0 6 2 = 3 ∧ (0xC0 : Byte) ≠ 0xFE ∧ (0xC0 : Byte) ≠ 0xFF) ∧
    ((onSpan [0xFD]).data.read 0 = some 0xFD ∧ Spec.fld 0xFD 6 2 = 3 ∧ (0xFD : Byte) ≠ 0xFE ∧ (0xFD : Byte) ≠ 0xFF) := by
  decide
theorem witness_CursorAdvancesByLength :
    ∃ t, step (onSpan [0xFF, 1, 2, 3, 4]) = .next t ∧ t.phase = .running := ⟨_, rfl, rfl⟩
/-- One pixel, and the most. -/
theorem witness_ChunkEmitsCopiesOfItsPixel :
    (∃ t, step (onSpan [0x40]) = .next t ∧ t.phase = .running) ∧
    (∃ t, step (onSpan [0xFD]) = .next t ∧ t.phase = .running) := ⟨⟨_, rfl, rfl⟩, ⟨_, rfl, rfl⟩⟩
/-- A completed chunk, a truncated one, and the end of a decode. -/
theorem witness_CacheIsWrittenOnlyAtTheHash :
    (∃ t, step (onSpan [0x40]) = .next t ∧ t.phase = .running) ∧
    (∃ t, step (onSpan [0xFE]) = .next t ∧ t.phase ≠ .running) ∧
    (∃ t, step (onSpan []) = .next t ∧ t.phase ≠ .running) :=
  ⟨⟨_, rfl, rfl⟩, ⟨_, rfl, nofun⟩, ⟨_, rfl, nofun⟩⟩
theorem witness_SpanIsNeverWritten : ∃ t, step (onSpan [0x40]) = .next t := ⟨_, rfl⟩
theorem witness_SinkIsOnlyAppendedTo :
    (∃ t, step (onSpan [0xC4]) = .next t) ∧
    (∃ t, step (onSpan [0xFE]) = .next t ∧ t.phase ≠ .running) := ⟨⟨_, rfl⟩, ⟨_, rfl, nofun⟩⟩
/-- The same LUMA at the end of one span and inside another that differs after it. -/
theorem witness_ChunkReadsOnlyItsOwnBytes :
    ∃ t, step (onSpan [0x80, 5]) = .next t ∧ t.phase = .running ∧
      ∀ addr, (onSpan [0x80, 5]).cursor ≤ addr → addr < t.cursor →
        (Memory.ofBytes [0x80, 5, 9, 9]).read addr = (onSpan [0x80, 5]).data.read addr := by
  refine ⟨_, rfl, rfl, fun addr _ h => ?_⟩
  match addr, h with
  | 0, _ => rfl
  | 1, _ => rfl
theorem witness_RunAfterChunkRepeatsItsPixel :
    ∃ t, step (onSpan [0x40, 0xFD]) = .next t ∧ t.phase = .running ∧
      t.data.read t.cursor = some 0xFD ∧ 0xC0 ≤ (0xFD : Byte).toNat ∧ (0xFD : Byte).toNat ≤ 0xFD :=
  ⟨_, rfl, rfl, rfl, by decide, by decide⟩
/-- I-2: INDEX 9 after the literal whose hash is 9. -/
theorem witness_LookupOfOwnSlotRepeatsPixel :
    ∃ t, step (onSpan [0xFF, 0x0A, 0x14, 0x1E, 0xFF, 0x09]) = .next t ∧ t.phase = .running ∧
      t.data.read t.cursor = some 0x09 ∧ (0x09 : Byte).toNat = Spec.hash t.px :=
  ⟨_, rfl, rfl, rfl, by decide⟩
theorem witness_StepKeepsTheInvariant :
    afterRun.Inv ∧ ∃ t, step afterRun = .next t := ⟨inv_afterRun, ⟨_, rfl⟩⟩
theorem witness_StepKeepsStatusConsistent :
    (onSpan [0x80]).StatusInv ∧ ∃ t, step (onSpan [0x80]) = .next t :=
  ⟨(inv_onSpan_one _).2.1, ⟨_, rfl⟩⟩
theorem witness_CacheInvariant :
    (∃ t, step (onSpan [0xC0]) = .next t ∧ t.phase = .running) ∧ afterRun.Inv :=
  ⟨⟨_, rfl, rfl⟩, inv_afterRun⟩
/-- The lowest and the highest INDEX tag, and a lookup of a slot that holds an emitted pixel. -/
theorem witness_LookupReturnsLastCollidingPixel :
    (afterRun.Inv ∧ afterRun.phase = .running ∧ afterRun.data.read afterRun.cursor = some 0x35 ∧
      Spec.fld 0x35 6 2 = 0) ∧
    ((onSpan [0x00]).Inv ∧ (onSpan [0x00]).phase = .running ∧ (onSpan [0x00]).data.read 0 = some 0x00 ∧
      Spec.fld 0x00 6 2 = 0) ∧
    ((onSpan [0x3F]).Inv ∧ (onSpan [0x3F]).phase = .running ∧ (onSpan [0x3F]).data.read 0 = some 0x3F ∧
      Spec.fld 0x3F 6 2 = 0) :=
  ⟨⟨inv_afterRun, rfl, rfl, by decide⟩, ⟨inv_onSpan_one _, rfl, rfl, by decide⟩,
    ⟨inv_onSpan_one _, rfl, rfl, by decide⟩⟩
/-- A one-byte span and a one-bit cursor; and the launch premise on the empty span. -/
theorem witness_CursorNeverWraps :
    (onSpan [0xC0]).Inv ∧ (∃ t, step (onSpan [0xC0]) = .next t) ∧ (onSpan [0xC0]).data.size < 2 ^ 1 ∧
    (onSpan []).LaunchOk :=
  ⟨inv_onSpan_one _, ⟨_, rfl⟩, by decide, Nat.two_pow_pos _⟩
theorem witness_EveryDecodeEnds :
    (onSpan [0x40, 0x80]).phase = .running ∧ (onSpan [0x40, 0x80]).cursor ≤ (onSpan [0x40, 0x80]).data.size := by
  decide
theorem witness_WholeChunksDecodeToTheirPixels :
    ∀ i ∈ [Instr.rgba 10 20 30 255, .diff 1 1 1, .luma 4 (-1) 2, .run 2, .index 9], i.wf = true := by
  decide
/-- P3: two whole chunks, then three bytes of an RGBA. -/
theorem witness_CutOffChunkEndsInError :
    (∀ j ∈ [Instr.diff 0 0 0, .rgb 1 2 3], j.wf = true) ∧ (Instr.rgba 1 2 0 0).wf = true ∧
    0 < 3 ∧ 3 < (encode (Instr.rgba 1 2 0 0)).length := by decide

end Sys2Proof.Tests
end

section
/-!
PROOFS, family 10_state.md, layer 1. What the transcription `Spec` computes, in the model's own
operations; the operands a decoded chunk can have; the effect of a chunk on each field.
-/

namespace Sys2Proof.Machine

/-! ### `Spec` in the model's operations -/

theorem spec_hash_eq (p : Pixel) : Spec.hash p = (pixelHash p).toNat := by
  simp [Spec.hash, pixelHash]

theorem spec_slot_eq_cacheRead (s : State) (j : CacheIndex) :
    Spec.slot s.cache j.toNat = s.cacheRead j := by
  simp only [Spec.slot, State.cacheRead, Nat.mod_eq_of_lt (cacheIndex_lt j)]

theorem spec_slot_hash_eq_cacheRead (s : State) (p : Pixel) :
    Spec.slot s.cache (Spec.hash p) = s.cacheRead (pixelHash p) := by
  rw [spec_hash_eq, spec_slot_eq_cacheRead]

theorem spec_store_eq_cacheWrite (s : State) (p : Pixel) :
    Spec.store s.cache p = (s.cacheWrite (pixelHash p) p).cache := by
  simp only [Spec.store, State.cacheWrite_cache, spec_hash_eq]

/-! ### The operands of a decoded chunk -/

/-- A field of n bits is below 2^n (R8). -/
theorem bits_lt (v : Byte) (hi lo : Nat) : bits v hi lo < 2 ^ (hi + 1 - lo) :=
  Nat.mod_lt _ (Nat.two_pow_pos _)

/-- The fields 62 and 63 of RUN are the tags of RGB and RGBA, so no RUN tag spells them (R53). -/
theorem bits_le_maxRunField_of_run {tag : Byte} (h : tagKind tag = .run) :
    bits tag 5 0 ≤ Config.maxRunField := by
  unfold tagKind at h
  split_ifs at h with hrgba hrgb hindex hdiff hluma
  simp only [bits, Config.maxRunField] at *
  bv_omega

/-- A field read with its bias is at least minus the bias (R51, R52). -/
theorem inRange_unbias {hi bias : Int} {f : Nat} (h : (f : Int) - bias ≤ hi) :
    inRange (-bias) hi (unbias bias f) = true :=
  decide_eq_true ⟨by unfold unbias; omega, h⟩

/-- Every chunk the decoder answers is well formed (R57, R61). -/
theorem wf_of_decode_ok {bytes rest : List Byte} {i : Instr} (h : decode bytes = .ok (i, rest)) :
    i.wf = true := by
  cases bytes with
  | nil => cases h
  | cons tag tl =>
    change decodeAs tag (tagKind tag) tl = .ok (i, rest) at h
    cases hk : tagKind tag <;> rw [hk] at h
    case rgba => rcases tl with _ | ⟨_, _ | ⟨_, _ | ⟨_, _ | ⟨_, _⟩⟩⟩⟩ <;> cases h; rfl
    case rgb => rcases tl with _ | ⟨_, _ | ⟨_, _ | ⟨_, _⟩⟩⟩ <;> cases h; rfl
    case index => cases h; rfl
    case diff =>
      cases h
      have hr := bits_lt tag 5 4
      have hg := bits_lt tag 3 2
      have hb := bits_lt tag 1 0
      simp only [decodeDiff, Instr.wf, Bool.and_eq_true]
      exact ⟨⟨inRange_unbias (by omega), inRange_unbias (by omega)⟩,
        inRange_unbias (by omega)⟩
    case luma =>
      cases tl with
      | nil => cases h
      | cons nb tl =>
        cases h
        have hg := bits_lt tag 5 0
        have hr := bits_lt nb 7 4
        have hb := bits_lt nb 3 0
        simp only [decodeLuma, Instr.wf, Bool.and_eq_true]
        exact ⟨⟨inRange_unbias (by omega), inRange_unbias (by omega)⟩,
          inRange_unbias (by omega)⟩
    case run =>
      cases h
      exact decide_eq_true (bits_le_maxRunField_of_run hk)

/-- A well-formed chunk emits at most 61 copies before its epilogue (R53, R75). -/
theorem copies_le_of_wf {i : Instr} (h : i.wf = true) : Spec.copies i ≤ Config.maxRunField := by
  cases i with
  | run k => exact of_decide_eq_true h
  | _ => exact Nat.zero_le _

/-! ### The effect of a chunk, field by field -/

section Effect

variable (i : Instr) (s : State)

@[simp] theorem effectOf_cache : (effectOf i s).cache = s.cache := by cases i <;> rfl
@[simp] theorem effectOf_cursor : (effectOf i s).cursor = s.cursor := by cases i <;> rfl
@[simp] theorem effectOf_phase : (effectOf i s).phase = s.phase := by cases i <;> rfl
@[simp] theorem effectOf_errKind : (effectOf i s).errKind = s.errKind := by cases i <;> rfl
@[simp] theorem effectOf_data : (effectOf i s).data = s.data := by cases i <;> rfl

@[simp] theorem cacheRead_effectOf (j : CacheIndex) :
    (effectOf i s).cacheRead j = s.cacheRead j := by cases i <;> rfl

/-- The copies of RUN are of the old `px`, which is also the one it leaves (R86). -/
theorem effectOf_out :
    (effectOf i s).out = s.out ++ List.replicate (Spec.copies i) (effectOf i s).px := by
  cases i with
  | run k => rfl
  | _ => exact (List.append_nil _).symm

/-- A completed chunk emits copies of the pixel it leaves, at least one (R75). -/
theorem finishChunk_effectOf_out (len : Nat) :
    ((effectOf i s).finishChunk len).out =
      s.out ++ List.replicate (Spec.copies i + 1) (effectOf i s).px := by
  rw [State.finishChunk_out, effectOf_out, List.append_assoc, List.replicate_succ']

/-- A completed chunk stores the pixel it leaves at its hash, once (R17, R70). -/
theorem finishChunk_effectOf_cache (len : Nat) :
    ((effectOf i s).finishChunk len).cache = Spec.store s.cache (effectOf i s).px := by
  rw [State.finishChunk_cache, ← spec_store_eq_cacheWrite, effectOf_cache]

/-- No effect reads or writes the status (R24). -/
theorem effectOf_with_status (p : Phase) (e : ErrKind) :
    effectOf i { s with phase := p, errKind := e } =
      { effectOf i s with phase := p, errKind := e } := by
  cases i <;> rfl

/-- Only RGBA and INDEX can change alpha (R14). -/
theorem effectOf_px_a (h : i.kind = .rgb ∨ i.kind = .diff ∨ i.kind = .luma ∨ i.kind = .run) :
    (effectOf i s).px.a = s.px.a := by
  cases i with
  | rgba | index => simp [Instr.kind] at h
  | rgb | diff | luma | run => rfl

/-- RUN leaves all of `px` (R14, R86). -/
theorem effectOf_px_of_run (h : i.kind = .run) : (effectOf i s).px = s.px := by
  cases i with
  | run k => rfl
  | _ => cases h

end Effect

end Sys2Proof.Machine
end

section
/-!
PROOFS, family 10_state.md, layer 2. The parts of the invariant, each at reset and kept by every step.
-/

namespace Sys2Proof.Machine

/-! ### The last pixel of a slot -/

/-- The copies a chunk emits are the newest of their hash and leave every other slot's pixel. -/
theorem lastWithHash_append_replicate (j : CacheIndex) (l : List Pixel) (n : Nat) (p : Pixel) :
    lastWithHash j (l ++ List.replicate (n + 1) p) =
      if pixelHash p = j then p else lastWithHash j l := by
  by_cases h : pixelHash p = j <;> simp [lastWithHash, h, List.getLast?_replicate]

/-- It is one of the pixels and has the slot's hash, or there is none and it is the reset value. -/
theorem lastWithHash_cases (j : CacheIndex) (l : List Pixel) :
    lastWithHash j l = State.zeroPixel ∨
      lastWithHash j l ∈ l ∧ pixelHash (lastWithHash j l) = j := by
  unfold lastWithHash
  cases h : (l.filter fun p => pixelHash p = j).getLast? with
  | none => exact .inl rfl
  | some p =>
    obtain ⟨hmem, hhash⟩ := List.mem_filter.1 (List.mem_of_getLast? h)
    exact .inr ⟨hmem, of_decide_eq_true hhash⟩

/-! ### What a step keeps -/

section Step

variable {s t : State}

/-- No step writes the span (R33). -/
theorem step_data (h : step s = .next t) : t.data = s.data := by
  obtain ⟨-, ⟨-, rfl⟩ | ⟨tag, -, ⟨-, rfl⟩ | ⟨-, i, rest, -, -, rfl⟩⟩⟩ := step_cases h
  · rfl
  · rfl
  · simp

/-- The status fields agree after every step: only the truncation error changes `err_kind`, and it
sets both (R23, R93). -/
theorem step_keeps_statusInv (hs : s.StatusInv) (h : step s = .next t) : t.StatusInv := by
  obtain ⟨hrun, hcase⟩ := step_cases h
  obtain ⟨hiff, -⟩ := hs
  have hnone : s.errKind = .none := hiff.2 (by simp [hrun])
  obtain ⟨-, rfl⟩ | ⟨tag, -, ⟨-, rfl⟩ | ⟨-, i, rest, -, -, rfl⟩⟩ := hcase
  · simp [State.StatusInv, hnone]
  · simp [State.StatusInv]
  · simp [State.StatusInv, hnone, hrun]

/-- `DONE` is entered at N only, `ERROR` at a chunk that does not fit only, and a completed chunk has
fitted, so the cursor stays in the span (R21, R65, R93). -/
theorem step_keeps_cursorInv (hs : s.CursorInv) (h : step s = .next t) : t.CursorInv := by
  obtain ⟨hle, -, -⟩ := hs
  obtain ⟨hrun, ⟨hend, rfl⟩ | ⟨tag, htag, ⟨hlong, rfl⟩ | ⟨hfit, i, rest, -, -, rfl⟩⟩⟩ :=
    step_cases h
  · exact ⟨hle, fun _ => hend, nofun⟩
  · exact ⟨hle, nofun, fun _ => ⟨tag, htag, hlong⟩⟩
  · simpa [State.CursorInv, hrun] using hfit

/-- What a completed chunk stores is what it emits last, so the cache stays readable off the emitted
pixels (R20, R108). -/
theorem step_keeps_cacheInv (hs : s.CacheInv) (h : step s = .next t) : t.CacheInv := by
  obtain ⟨-, ⟨-, rfl⟩ | ⟨tag, -, ⟨-, rfl⟩ | ⟨-, i, rest, -, -, rfl⟩⟩⟩ := step_cases h
  · exact hs
  · exact hs
  · intro j
    rw [State.cacheRead_finishChunk, finishChunk_effectOf_out, lastWithHash_append_replicate,
      cacheRead_effectOf, hs j]

/-- `px` stays the last pixel emitted (R13, R70). -/
theorem step_keeps_pxInv (hs : s.PxInv) (h : step s = .next t) : t.PxInv := by
  obtain ⟨-, ⟨-, rfl⟩ | ⟨tag, -, ⟨-, rfl⟩ | ⟨-, i, rest, -, -, rfl⟩⟩⟩ := step_cases h
  · exact hs
  · exact hs
  · simp [State.PxInv]

/-- A completed chunk takes 1 to 5 bytes and emits 1 to 62 pixels (R48, R75). -/
theorem step_keeps_countInv (hs : s.CountInv) (h : step s = .next t) : t.CountInv := by
  obtain ⟨-, ⟨-, rfl⟩ | ⟨tag, -, ⟨-, rfl⟩ | ⟨-, i, rest, hdec, -, rfl⟩⟩⟩ := step_cases h
  · exact hs
  · exact hs
  · have hpos := chunkLength_pos tag
    have hmax := chunkLength_le_max tag
    have hcopies := copies_le_of_wf (wf_of_decode_ok hdec)
    simp only [State.CountInv, finishChunk_effectOf_out, State.finishChunk_cursor, effectOf_cursor,
      List.length_append, List.length_replicate, Config.maxChunkLen, Config.maxRunField] at *
    omega

/-- A step writes the cache at the hash of the new pixel when it completes a chunk, else not at all
(R17, R70). -/
theorem step_cache (h : step s = .next t) :
    (t.phase = .running ∧ t.cache = Spec.store s.cache t.px) ∨
      (t.phase ≠ .running ∧ t.cache = s.cache) := by
  obtain ⟨hrun, ⟨-, rfl⟩ | ⟨tag, -, ⟨-, rfl⟩ | ⟨-, i, rest, -, -, rfl⟩⟩⟩ := step_cases h
  · exact .inr ⟨nofun, rfl⟩
  · exact .inr ⟨nofun, rfl⟩
  · exact .inl ⟨by simpa using hrun, finishChunk_effectOf_cache i s _⟩

end Step

/-- Reset on a span in canonical form meets the invariant: nothing is emitted, every slot is zero and
`px` has its reset value (R29). -/
theorem State.resetOn_inv {span : Memory} (h : span.wf = true) : (State.resetOn span).Inv := by
  refine ⟨h, ?status, ?cursor, ?cache, rfl, ?count⟩
  case status => simp [State.StatusInv]
  case cursor => simp [State.CursorInv]
  case cache => intro j; rw [State.cacheRead_resetOn]; rfl
  case count => simp [State.CountInv]

end Sys2Proof.Machine
end

section
/-!
PROOFS, family 10_state.md. The statements, each assembled from the lemmas above.
-/

namespace Sys2Proof.Machine

/-- Settles O51: part by part of the invariant. -/
theorem stepKeepsTheInvariant : Obligations.StepKeepsTheInvariant := by
  rintro s t ⟨hwf, hstatus, hcursor, hcache, hpx, hcount⟩ h
  exact ⟨by rw [step_data h]; exact hwf, step_keeps_statusInv hstatus h,
    step_keeps_cursorInv hcursor h, step_keeps_cacheInv hcache h, step_keeps_pxInv hpx h,
    step_keeps_countInv hcount h⟩

/-- Settles O9: 64 divides 256 and 2^w, so no reduction along the way changes the sum mod 64. -/
theorem hashIsSameInEveryWidth : Obligations.HashIsSameInEveryWidth := by
  refine ⟨fun p => ⟨?sum, ?low, fun w hw => ?width⟩, by decide, by decide, by decide⟩
  case sum => rw [← spec_hash_eq, Spec.hash]
  case low => rw [← spec_hash_eq, Spec.hash]; omega
  case width =>
    have hdvd : 64 ∣ 2 ^ w := Nat.pow_dvd_pow 2 hw
    simp only [← BitVec.ofNat_mul, ← BitVec.ofNat_add, BitVec.toNat_ofNat,
      Nat.mod_mod_of_dvd _ hdvd]
    rw [← spec_hash_eq, Spec.hash]

/-- Settles O25: a chunk that fits completes whatever the status, and neither its effect nor its end
touches the status. -/
theorem noChunkReadsStatus : Obligations.NoChunkReadsStatus := by
  intro i s t p e hfit h
  rw [exec_fits hfit] at h
  cases h
  rw [exec_fits (s := { s with phase := p, errKind := e }) hfit, effectOf_with_status]
  rfl

/-- Settles O43. -/
theorem cacheIsWrittenOnlyAtTheHash : Obligations.CacheIsWrittenOnlyAtTheHash := by
  intro s t h
  obtain ⟨hrun, hc⟩ | ⟨hend, hc⟩ := step_cache h
  · exact ⟨fun _ => hc, fun hend => absurd hrun hend⟩
  · exact ⟨fun hrun => absurd hrun hend, fun _ => hc⟩

/-- Settles O52. -/
theorem stepKeepsStatusConsistent : Obligations.StepKeepsStatusConsistent :=
  fun _ _ => step_keeps_statusInv

/-- Settles O53: the epilogue's store, the zero cache of reset, and the last pixel of a slot. -/
theorem cacheInvariant : Obligations.CacheInvariant := by
  refine ⟨?stored, ?reset, fun s ⟨_, _, _, hcache, _, _⟩ j => ⟨?slot, ?zeroSlot⟩⟩
  case stored =>
    intro s t h hrun
    obtain ⟨-, hc⟩ | ⟨hend, -⟩ := step_cache h
    · rw [hc, spec_store_eq_cacheWrite, spec_slot_hash_eq_cacheRead, State.cacheRead_cacheWrite,
        if_pos rfl]
    · exact absurd hrun hend
  case reset =>
    intro bytes
    rw [spec_slot_hash_eq_cacheRead, Spec.launch, State.cacheRead_resetOn, State.resetOn_px]
    decide
  case slot =>
    rw [spec_slot_eq_cacheRead, hcache j, spec_hash_eq, BitVec.toNat_inj]
    exact lastWithHash_cases j s.out
  case zeroSlot =>
    rw [show Spec.slot s.cache 0 = s.cacheRead 0 from spec_slot_eq_cacheRead s 0, hcache 0]
    obtain hzero | ⟨-, hhash⟩ := lastWithHash_cases 0 s.out
    · rw [hzero]; rfl
    · rw [spec_hash_eq, hhash]; rfl

/-- Settles O55: before and after a step the cursor is at most N, and N does not change. -/
theorem cursorNeverWraps : Obligations.CursorNeverWraps := by
  rintro s t ⟨-, -, hcursor, -, -, -⟩ h
  have hbefore := hcursor.1
  have hafter := (step_keeps_cursorInv hcursor h).1
  rw [step_data h] at hafter
  refine ⟨fun W hW => ⟨by omega, by omega⟩, fun hlaunch => ⟨?_, ?_⟩⟩
  · rwa [State.LaunchOk, step_data h]
  · exact Nat.lt_of_le_of_lt hafter hlaunch

/-- Settles O13. -/
theorem statusPortCodes : Obligations.StatusPortCodes := by
  refine ⟨rfl, rfl, rfl, rfl, rfl, rfl, fun s => ⟨?phase, ?err, rfl⟩⟩
  case phase => simp only [State.statusPort]; cases s.phase <;> decide
  case err => simp only [State.statusPort]; cases s.errKind <;> decide

/-- Settles O15. -/
theorem resetSetsEveryPieceOfState : Obligations.ResetSetsEveryPieceOfState := by
  have hslot (span : Memory) (i : Nat) : Spec.slot (State.resetOn span).cache i = ⟨0, 0, 0, 0⟩ := by
    simp [Spec.slot, State.zeroPixel]
  refine ⟨fun bytes => ?_, rfl, fun i _ => hslot Memory.empty i, rfl, rfl, rfl, rfl⟩
  exact ⟨rfl, fun i _ => hslot _ i, rfl, rfl, rfl, rfl, Memory.ofBytes_size bytes,
    Memory.read_ofBytes bytes⟩

/-- Settles O24: a truncated chunk keeps all of `px`, a completed one leaves what its effect left. -/
theorem channelsEachChunkKeeps : Obligations.ChannelsEachChunkKeeps := by
  intro i s t h
  obtain ⟨-, hexec⟩ | hexec := exec_cases i s <;> rw [hexec] at h <;> cases h
  · exact ⟨fun _ => rfl, fun _ => rfl⟩
  · exact ⟨effectOf_px_a i s, effectOf_px_of_run i s⟩

/-- Settles O50: `State.reset` is the reset on the empty span. -/
theorem resetMeetsTheInvariant : Obligations.ResetMeetsTheInvariant :=
  ⟨State.resetOn_inv Memory.empty_wf, fun bytes => State.resetOn_inv (Memory.ofBytes_wf bytes)⟩

end Sys2Proof.Machine
end

section
/-!
PROOFS, family 20_memory.md, layer 1. The packed word; canonical spans; the bytes a chunk is decoded
from; what a chunk does with another sink or another span; the steps that `step_cases` tells apart,
each from its own condition.
-/

namespace Sys2Proof.Machine

/-! ### The packed word (R39) -/

/-- Concatenation, read as a number: the low part has w bits. -/
theorem toNat_append_eq_add {v w : Nat} (x : BitVec v) (y : BitVec w) :
    (x ++ y).toNat = 2 ^ w * x.toNat + y.toNat := by
  rw [BitVec.toNat_append, ← Nat.shiftLeft_add_eq_or_of_lt y.isLt, Nat.shiftLeft_eq, Nat.mul_comm]

theorem packPixel_toNat (p : Pixel) :
    (packPixel p).toNat =
      p.r.toNat + 2 ^ 8 * p.g.toNat + 2 ^ 16 * p.b.toNat + 2 ^ 24 * p.a.toNat := by
  simp only [packPixel, toNat_append_eq_add]
  omega

/-- A byte of the packed word is the channel its number says. -/
theorem extractLsb'_packPixel {p : Pixel} {lo : Nat} {channel : Byte}
    (h : (p.r.toNat + 2 ^ 8 * p.g.toNat + 2 ^ 16 * p.b.toNat + 2 ^ 24 * p.a.toNat) / 2 ^ lo %
      2 ^ 8 = channel.toNat) : (packPixel p).extractLsb' lo 8 = channel := by
  apply BitVec.eq_of_toNat_eq
  rw [BitVec.extractLsb'_toNat, packPixel_toNat, Nat.shiftRight_eq_div_pow, h]

theorem unpackPixel_packPixel (p : Pixel) : unpackPixel (packPixel p) = p := by
  have hr := p.r.isLt
  have hg := p.g.isLt
  have hb := p.b.isLt
  rw [unpackPixel, extractLsb'_packPixel (channel := p.r) (by omega),
    extractLsb'_packPixel (channel := p.g) (by omega),
    extractLsb'_packPixel (channel := p.b) (by omega),
    extractLsb'_packPixel (channel := p.a) (by omega)]

theorem packPixel_unpackPixel (w : BitVec 32) : packPixel (unpackPixel w) = w := by
  apply BitVec.eq_of_toNat_eq
  simp only [packPixel_toNat, unpackPixel, BitVec.extractLsb'_toNat, Nat.shiftRight_eq_div_pow]
  omega

/-! ### Spans that read the same (R31) -/

theorem Memory.cellsWf_cons {size lo a : Nat} {b : Byte} {rest : List Host.Cell} :
    Memory.cellsWf size lo ((a, b) :: rest) = true ↔
      lo ≤ a ∧ a < size ∧ b ≠ Memory.unlisted ∧ Memory.cellsWf size (a + 1) rest = true := by
  simp [Memory.cellsWf, and_assoc]

@[simp] theorem Memory.lookup_cons_self (a : Nat) (b : Byte) (rest : List Host.Cell) :
    Memory.lookup ((a, b) :: rest) a = b := if_pos rfl

theorem Memory.lookup_cons_of_ne {a x : Nat} (b : Byte) (rest : List Host.Cell) (h : a ≠ x) :
    Memory.lookup ((a, b) :: rest) x = Memory.lookup rest x := if_neg h

/-- A byte that is not the unlisted one is read nowhere below the first cell. -/
theorem Memory.head_le_of_lookup_ne {size lo a x : Nat} {b : Byte} {rest : List Host.Cell}
    (h : Memory.cellsWf size lo ((a, b) :: rest) = true)
    (hx : Memory.lookup ((a, b) :: rest) x ≠ Memory.unlisted) : a ≤ x := by
  obtain ⟨-, ha, hb, hrest⟩ := Memory.cellsWf_cons.1 h
  have hfrom : Memory.cellsWf size a ((a, b) :: rest) = true :=
    Memory.cellsWf_cons.2 ⟨Nat.le_refl a, ha, hb, hrest⟩
  by_contra hlt
  exact hx (Memory.lookup_below hfrom (by omega))

/-- Canonical cells are determined by what they read as: both lists begin with the lowest address
that does not read as the unlisted byte, and with that byte. -/
theorem Memory.cells_eq_of_lookup_eq {size lo lo' : Nat} {cs cs' : List Host.Cell}
    (h : Memory.cellsWf size lo cs = true) (h' : Memory.cellsWf size lo' cs' = true)
    (heq : ∀ x < size, Memory.lookup cs x = Memory.lookup cs' x) : cs = cs' := by
  induction cs generalizing lo lo' cs' with
  | nil =>
    cases cs' with
    | nil => rfl
    | cons c' rest' =>
      obtain ⟨a', b'⟩ := c'
      obtain ⟨-, ha', hb', -⟩ := Memory.cellsWf_cons.1 h'
      exact absurd (by simpa [Memory.lookup] using (heq a' ha').symm) hb'
  | cons c rest ih =>
    obtain ⟨a, b⟩ := c
    obtain ⟨-, ha, hb, hrest⟩ := Memory.cellsWf_cons.1 h
    have hread : Memory.lookup cs' a = b := by rw [← heq a ha, Memory.lookup_cons_self]
    cases cs' with
    | nil => exact absurd hread.symm hb
    | cons c' rest' =>
      obtain ⟨a', b'⟩ := c'
      obtain ⟨-, ha', hb', hrest'⟩ := Memory.cellsWf_cons.1 h'
      have hread' : Memory.lookup ((a, b) :: rest) a' = b' := by
        rw [heq a' ha', Memory.lookup_cons_self]
      obtain rfl : a = a' := Nat.le_antisymm
        (Memory.head_le_of_lookup_ne h (hread' ▸ hb')) (Memory.head_le_of_lookup_ne h' (hread ▸ hb))
      obtain rfl : b' = b := by simpa using hread
      congr 1
      refine ih hrest hrest' fun x hx => ?_
      by_cases hax : a = x
      · rw [Memory.lookup_below hrest (by omega), Memory.lookup_below hrest' (by omega)]
      · simpa only [Memory.lookup_cons_of_ne _ _ hax] using heq x hx

/-! ### The bytes a chunk is decoded from (R32) -/

/-- Decoding as a kind looks at the operand bytes of that kind alone. -/
theorem decodeAs_ok_append {tag : Byte} {k : Kind} {tl rest : List Byte} {i : Instr}
    (h : decodeAs tag k tl = .ok (i, rest)) :
    ∃ ops, tl = ops ++ rest ∧ ops.length + 1 = kindLength k ∧
      ∀ more, decodeAs tag k (ops ++ more) = .ok (i, more) := by
  cases k with
  | rgba =>
    rcases tl with _ | ⟨r, _ | ⟨g, _ | ⟨b, _ | ⟨a, tl⟩⟩⟩⟩ <;> cases h
    exact ⟨[r, g, b, a], rfl, rfl, fun _ => rfl⟩
  | rgb =>
    rcases tl with _ | ⟨r, _ | ⟨g, _ | ⟨b, tl⟩⟩⟩ <;> cases h
    exact ⟨[r, g, b], rfl, rfl, fun _ => rfl⟩
  | luma =>
    rcases tl with _ | ⟨nb, tl⟩ <;> cases h
    exact ⟨[nb], rfl, rfl, fun _ => rfl⟩
  | index | diff | run => cases h; exact ⟨[], rfl, rfl, fun _ => rfl⟩

/-- The decoder looks at a chunk's own bytes alone: whatever follows them, it answers that chunk. -/
theorem decode_ok_append {bytes rest : List Byte} {i : Instr} (h : decode bytes = .ok (i, rest)) :
    ∃ own, bytes = own ++ rest ∧ own.length = kindLength i.kind ∧
      ∀ more, decode (own ++ more) = .ok (i, more) := by
  cases bytes with
  | nil => cases h
  | cons tag tl =>
    obtain ⟨hkind, -, -⟩ := decode_cons_ok h
    obtain ⟨ops, htl, hlen, hmore⟩ := decodeAs_ok_append h
    exact ⟨tag :: ops, by rw [htl, List.cons_append], by rw [hkind]; exact hlen, hmore⟩

/-- Spans that read the same at k addresses give the same first k bytes from there. -/
theorem Memory.take_bytesFrom_congr {m m' : Memory} {a n k : Nat} (hk : k ≤ n)
    (h : ∀ addr, a ≤ addr → addr < a + k → m'.read addr = m.read addr) :
    (m'.bytesFrom a n).take k = (m.bytesFrom a n).take k := by
  refine List.ext_getElem? fun j => ?_
  simp only [List.getElem?_take]
  split
  · rw [Memory.bytesFrom_getElem? (by omega), Memory.bytesFrom_getElem? (by omega),
      h (a + j) (by omega) (by omega)]
  · rfl

/-- The chunk decoded from one span is decoded from every span that has its bytes (R32, R78). -/
theorem decode_bytesFrom_congr {m m' : Memory} {c : Nat} {i : Instr} {rest : List Byte}
    (hd : decode (m.bytesFrom c Config.maxChunkLen) = .ok (i, rest))
    (h : ∀ addr, c ≤ addr → addr < c + kindLength i.kind → m'.read addr = m.read addr) :
    ∃ rest', decode (m'.bytesFrom c Config.maxChunkLen) = .ok (i, rest') := by
  obtain ⟨own, happ, hlen, hmore⟩ := decode_ok_append hd
  have hown : (m'.bytesFrom c Config.maxChunkLen).take (kindLength i.kind) = own := by
    rw [Memory.take_bytesFrom_congr (kindLength_le_max _) h, happ, ← hlen, List.take_left]
  rw [← List.take_append_drop (kindLength i.kind) (m'.bytesFrom c Config.maxChunkLen), hown]
  exact ⟨_, hmore _⟩

/-! ### A chunk with another span or another sink -/

/-- No effect reads or writes the span: the operands stand in the chunk (R33, R78). -/
theorem effectOf_with_data (i : Instr) (s : State) (m : Memory) :
    effectOf i { s with data := m } = { effectOf i s with data := m } := by
  cases i <;> rfl

/-- A completed chunk appends the same pixels to any sink and does the same else (R36). -/
theorem finishChunk_effectOf_with_out (i : Instr) (s : State) (o : List Pixel) (len : Nat) :
    (effectOf i { s with out := o }).finishChunk len =
      { (effectOf i s).finishChunk len with
        out := o ++ List.replicate (Spec.copies i + 1) (effectOf i s).px } := by
  have hpx : (effectOf i { s with out := o }).px = (effectOf i s).px := by cases i <;> rfl
  have hout := finishChunk_effectOf_out i { s with out := o } len
  rw [hpx] at hout
  rw [← hout]
  cases i <;> rfl

/-- A slot other than the one stored to is left alone (R17). -/
theorem spec_slot_store_of_ne {cache : Vector Pixel 64} {p : Pixel} {j : Nat} (hj : j < 64)
    (hne : j ≠ Spec.hash p) : Spec.slot (Spec.store cache p) j = Spec.slot cache j := by
  simp [Spec.slot, Spec.store, Nat.mod_eq_of_lt hj, hne.symm]

/-! ### The three steps, each from its own condition (R65, R68, R72) -/

section Step

variable {s : State} (hp : s.phase = .running)

include hp

theorem step_of_end (hc : s.cursor = s.data.size) : step s = .next s.endDecode := by
  simp only [step, fetchChunk, hp, if_pos hc]

theorem step_of_truncated {tag : Byte} (ht : s.data.read s.cursor = some tag)
    (hlong : s.data.size < s.cursor + chunkLength tag) : step s = .next s.raiseTruncated := by
  obtain ⟨-, hf⟩ | ⟨hfit, -⟩ := fetchChunk_at_tag hp ht
  · simp only [step, hf]
  · omega

/-- Bytes that decode to a chunk are all in the span, so that chunk completes. -/
theorem step_of_decode {i : Instr} {rest : List Byte}
    (hd : decode (s.data.bytesFrom s.cursor Config.maxChunkLen) = .ok (i, rest)) :
    step s = .next ((effectOf i s).finishChunk (kindLength i.kind)) := by
  obtain ⟨own, happ, hlen, -⟩ := decode_ok_append hd
  have hpos := kindLength_pos i.kind
  have hfit : s.cursor + kindLength i.kind ≤ s.data.size := by
    have hbytes := congrArg List.length happ
    rw [Memory.bytesFrom_length, List.length_append] at hbytes
    omega
  have hne : s.cursor ≠ s.data.size := by omega
  simp only [step, fetchChunk, hp, if_neg hne, hd, exec_fits hfit]

end Step

end Sys2Proof.Machine
end

section
/-!
PROOFS, family 20_memory.md. The statements, each assembled from the lemmas above.
-/

namespace Sys2Proof.Machine

/-- Settles O14: the cells are determined by what they read as, and the sizes are equal. -/
theorem spansThatReadTheSameAreEqual : Obligations.SpansThatReadTheSameAreEqual := by
  rintro ⟨size, cells⟩ ⟨size', cells'⟩ hwf hwf' rfl hread
  have hcells : cells = cells' := Memory.cells_eq_of_lookup_eq hwf hwf' fun x hx =>
    (Memory.read_eq_some.1 ((hread x).trans (Memory.read_eq_some.2 ⟨hx, rfl⟩))).2
  rw [hcells]

/-- Settles O23: a truncated chunk changes the status only; a completed one appends its pixels,
stores at its pixel's hash and advances. -/
theorem chunkFrame : Obligations.ChunkFrame := by
  intro i s t h
  obtain ⟨-, hexec⟩ | hexec := exec_cases i s <;> rw [hexec] at h <;> cases h
  case inl => exact ⟨rfl, fun _ => rfl, ⟨[], List.append_nil _⟩, fun _ _ _ => rfl, .inl rfl⟩
  case inr =>
    refine ⟨by simp, by simp, ?out, ?cache, .inr (by simp)⟩
    case out => rw [finishChunk_effectOf_out]; exact ⟨_, rfl⟩
    case cache =>
      intro j hj hne
      rw [State.finishChunk_px] at hne
      rw [finishChunk_effectOf_cache, spec_slot_store_of_ne hj hne]

/-- Settles O45: the two ends of a decode append nothing, a completed chunk the copies of its pixel;
none of the three conditions speaks of the sink. -/
theorem sinkIsOnlyAppendedTo : Obligations.SinkIsOnlyAppendedTo := by
  intro s t h
  obtain ⟨hp, ⟨hc, rfl⟩ | ⟨tag, ht, ⟨hlong, rfl⟩ | ⟨-, i, rest, hd, hk, rfl⟩⟩⟩ := step_cases h
  · refine ⟨[], by simp, fun _ => rfl, fun o => ?_⟩
    rw [List.append_nil, step_of_end (s := { s with out := o }) hp hc]
    rfl
  · refine ⟨[], by simp, fun _ => rfl, fun o => ?_⟩
    rw [List.append_nil, step_of_truncated (s := { s with out := o }) hp ht hlong]
    rfl
  · refine ⟨List.replicate (Spec.copies i + 1) (effectOf i s).px, finishChunk_effectOf_out i s _,
      fun hend => absurd (by simpa using hp) hend, fun o => ?_⟩
    rw [step_of_decode (s := { s with out := o }) hp hd, hk, finishChunk_effectOf_with_out]
    rfl

/-- Settles O46: the other span has the chunk's own bytes, so the same chunk is decoded from it, and
its effect does not read the span. -/
theorem chunkReadsOnlyItsOwnBytes : Obligations.ChunkReadsOnlyItsOwnBytes := by
  intro s t m h hrun hbytes
  obtain ⟨hp, ⟨-, rfl⟩ | ⟨tag, -, ⟨-, rfl⟩ | ⟨-, i, rest, hd, hk, rfl⟩⟩⟩ := step_cases h
  · cases hrun
  · cases hrun
  · have hown : ∀ addr, s.cursor ≤ addr → addr < s.cursor + kindLength i.kind →
        m.read addr = s.data.read addr := by simpa [chunkLength, hk] using hbytes
    obtain ⟨rest', hd'⟩ := decode_bytesFrom_congr hd hown
    rw [step_of_decode (s := { s with data := m }) hp hd', effectOf_with_data, hk]
    rfl

/-- Settles O12. -/
theorem packedWordHoldsChannels : Obligations.PackedWordHoldsChannels :=
  ⟨packPixel_toNat, unpackPixel_packPixel, packPixel_unpackPixel⟩

/-- Settles O44. -/
theorem spanIsNeverWritten : Obligations.SpanIsNeverWritten := by
  intro s t h
  rw [step_data h]
  exact ⟨rfl, fun _ => rfl⟩

end Sys2Proof.Machine
end

section
/-!
PROOFS, family 30_encoding.md, layer 1. The ranges of tag values; the fields of a byte, read and
written; the decoder and the encoder as inverses; bytes too few for a chunk; the opcode table's
numbering; a word placed at the cursor; a completed chunk in the words of `Spec`.
-/

namespace Sys2Proof.Machine

/-! ### The six ranges of tag values (R49, R56) -/

/-- Each kind is spelled exactly by its range (R56). -/
theorem tagKind_eq_iff (tag : Byte) :
    (tagKind tag = .index ↔ tag.toNat ≤ 0x3F) ∧
    (tagKind tag = .diff ↔ 0x40 ≤ tag.toNat ∧ tag.toNat ≤ 0x7F) ∧
    (tagKind tag = .luma ↔ 0x80 ≤ tag.toNat ∧ tag.toNat ≤ 0xBF) ∧
    (tagKind tag = .run ↔ 0xC0 ≤ tag.toNat ∧ tag.toNat ≤ 0xFD) ∧
    (tagKind tag = .rgb ↔ tag = 0xFE) ∧
    (tagKind tag = .rgba ↔ tag = 0xFF) := by
  have hlt := tag.isLt
  have hrgba : tag = 0xFF ↔ tag.toNat = 255 := BitVec.toNat_inj.symm
  have hrgb : tag = 0xFE ↔ tag.toNat = 254 := BitVec.toNat_inj.symm
  have htop : bits tag 7 6 = tag.toNat / 64 % 4 := rfl
  simp only [tagKind, hrgba, hrgb, htop]
  split_ifs <;> simp only [true_iff, false_iff] <;> omega

/-! ### Biased fields (R51, R52) -/

/-- A delta in the range of a w-bit field is read back from it. -/
theorem unbias_biased {w : Nat} {bias x : Int} (hlo : 0 ≤ x + bias) (hhi : x + bias < 2 ^ w) :
    unbias bias (biased w bias x).toNat = x := by
  have hmod : (x + bias) % ((2 ^ w : Nat) : Int) = x + bias :=
    Int.emod_eq_of_lt hlo (by exact_mod_cast hhi)
  rw [unbias, biased, BitVec.toNat_ofInt, hmod]
  omega

/-- A field read with its bias is written back as it was. -/
theorem biased_unbias (w : Nat) (bias : Int) (f : Nat) :
    biased w bias (unbias bias f) = BitVec.ofNat w f := by
  rw [biased, unbias, Int.sub_add_cancel, BitVec.ofInt_natCast]

theorem inRange_iff {lo hi x : Int} : inRange lo hi x = true ↔ lo ≤ x ∧ x ≤ hi :=
  decide_eq_true_iff

/-! ### A tag byte and its fields (R50 to R53) -/

/-- The low field of a byte made of a 2-bit and a 6-bit field (INDEX, LUMA, RUN). -/
theorem bits_low_append (top : BitVec 2) (f : BitVec 6) : bits (top ++ f) 5 0 = f.toNat := by
  have hf := f.isLt
  simp only [bits, toNat_append_eq_add]
  omega

/-- The two nibbles of LUMA's second byte. -/
theorem bits_pair_append (x y : BitVec 4) :
    bits (x ++ y) 7 4 = x.toNat ∧ bits (x ++ y) 3 0 = y.toNat := by
  have hx := x.isLt
  have hy := y.isLt
  simp only [bits, toNat_append_eq_add]
  omega

/-- The three 2-bit fields of a DIFF tag. -/
theorem bits_append_fields (top x y z : BitVec 2) :
    bits (top ++ x ++ y ++ z) 5 4 = x.toNat ∧ bits (top ++ x ++ y ++ z) 3 2 = y.toNat ∧
      bits (top ++ x ++ y ++ z) 1 0 = z.toNat := by
  have hx := x.isLt
  have hy := y.isLt
  have hz := z.isLt
  simp only [bits, toNat_append_eq_add, Nat.reducePow]
  omega

/-- The byte whose top field is given and whose low field is its own. -/
theorem append_bits_low {tag : Byte} {top : BitVec 2} (h : tag.toNat / 64 = top.toNat) :
    top ++ BitVec.ofNat 6 (bits tag 5 0) = tag := by
  apply BitVec.eq_of_toNat_eq
  simp only [toNat_append_eq_add, BitVec.toNat_ofNat, bits]
  omega

/-- A byte is its two nibbles. -/
theorem append_bits_pair (v : Byte) :
    BitVec.ofNat 4 (bits v 7 4) ++ BitVec.ofNat 4 (bits v 3 0) = v := by
  have hv := v.isLt
  apply BitVec.eq_of_toNat_eq
  simp only [toNat_append_eq_add, BitVec.toNat_ofNat, bits]
  omega

/-- The byte whose top field is given and whose three 2-bit fields are its own. -/
theorem append_bits_fields {tag : Byte} {top : BitVec 2} (h : tag.toNat / 64 = top.toNat) :
    top ++ BitVec.ofNat 2 (bits tag 5 4) ++ BitVec.ofNat 2 (bits tag 3 2) ++
      BitVec.ofNat 2 (bits tag 1 0) = tag := by
  apply BitVec.eq_of_toNat_eq
  simp only [toNat_append_eq_add, BitVec.toNat_ofNat, bits]
  omega

/-! ### The decoder and the encoder undo each other (R60, R61) -/

/-- Every well-formed chunk is encoded as a tag of its own kind and that kind's operand bytes. -/
theorem encode_tagged (i : Instr) : Laws.Tagged.Statement i := by
  cases i with
  | rgba r g b a => exact Laws.Tagged.rgba r g b a
  | rgb r g b => exact Laws.Tagged.rgb r g b
  | index slot => exact Laws.Tagged.index slot
  | diff dr dg db => exact Laws.Tagged.diff dr dg db
  | luma dg drDg dbDg => exact Laws.Tagged.luma dg drDg dbDg
  | run k => exact Laws.Tagged.run k

@[simp] theorem encode_length (i : Instr) : (encode i).length = kindLength i.kind := by
  cases i <;> rfl

/-- The tag of an encoding spells the chunk's kind, and then each field is read back (R61). -/
theorem decode_encode {i : Instr} (h : i.wf = true) (rest : List Byte) :
    decode (encode i ++ rest) = .ok (i, rest) := by
  obtain ⟨tag, tl, henc, hkind, -⟩ := encode_tagged i h
  rw [henc, List.cons_append, decode, hkind]
  cases i with
  | rgba r g b a | rgb r g b => cases henc; rfl
  | index slot =>
    cases henc
    simp [Instr.kind, decodeAs, decodeIndex, bits_low_append]
  | diff dr dg db =>
    cases henc
    simp only [Instr.wf, Bool.and_eq_true, inRange_iff] at h
    obtain ⟨⟨hr, hg⟩, hb⟩ := h
    obtain ⟨hdr, hdg, hdb⟩ :=
      bits_append_fields 0b01#2 (biased 2 2 dr) (biased 2 2 dg) (biased 2 2 db)
    simp only [Instr.kind, decodeAs, decodeDiff, hdr, hdg, hdb, List.nil_append]
    rw [unbias_biased (by omega) (by omega), unbias_biased (by omega) (by omega),
      unbias_biased (by omega) (by omega)]
  | luma dg drDg dbDg =>
    cases henc
    simp only [Instr.wf, Bool.and_eq_true, inRange_iff] at h
    obtain ⟨⟨hg, hr⟩, hb⟩ := h
    obtain ⟨hdr, hdb⟩ := bits_pair_append (biased 4 8 drDg) (biased 4 8 dbDg)
    simp only [Instr.kind, decodeAs, decodeLuma, bits_low_append, hdr, hdb, List.cons_append,
      List.nil_append]
    rw [unbias_biased (by omega) (by omega), unbias_biased (by omega) (by omega),
      unbias_biased (by omega) (by omega)]
  | run k =>
    cases henc
    have hk : k ≤ 61 := of_decide_eq_true h
    have hmod : k % 64 = k := Nat.mod_eq_of_lt (by omega)
    simp [Instr.kind, decodeAs, decodeRun, bits_low_append, hmod]

/-- One parse (R60): the range of a tag's kind gives its top field, and the fields read from a byte,
with the top field, make it again. -/
theorem encode_of_decode_ok {bytes rest : List Byte} {i : Instr}
    (h : decode bytes = .ok (i, rest)) :
    bytes = encode i ++ rest := by
  cases bytes with
  | nil => cases h
  | cons tag tl =>
    obtain ⟨hindex, hdiff, hluma, hrun, hrgb, hrgba⟩ := tagKind_eq_iff tag
    rw [decode] at h
    cases hk : tagKind tag <;> rw [hk] at h
    case rgba =>
      rcases tl with _ | ⟨_, _ | ⟨_, _ | ⟨_, _ | ⟨_, _⟩⟩⟩⟩ <;> cases h
      rw [hrgba.1 hk]; rfl
    case rgb =>
      rcases tl with _ | ⟨_, _ | ⟨_, _ | ⟨_, _⟩⟩⟩ <;> cases h
      rw [hrgb.1 hk]; rfl
    case index =>
      cases h
      have htop : tag.toNat / 64 = 0 := by have := hindex.1 hk; omega
      rw [decodeIndex, encode, append_bits_low (top := 0b00#2) htop]; rfl
    case diff =>
      cases h
      have htop : tag.toNat / 64 = 1 := by have := hdiff.1 hk; omega
      simp only [decodeDiff, encode, biased_unbias, append_bits_fields (top := 0b01#2) htop]; rfl
    case luma =>
      cases tl <;> cases h
      have htop : tag.toNat / 64 = 2 := by have := hluma.1 hk; omega
      simp only [decodeLuma, encode, biased_unbias, append_bits_low (top := 0b10#2) htop,
        append_bits_pair]
      rfl
    case run =>
      cases h
      have htop : tag.toNat / 64 = 3 := by have := hrun.1 hk; omega
      rw [decodeRun, encode, append_bits_low (top := 0b11#2) htop]; rfl

/-! ### Bytes that are enough for a chunk (R58, R68) -/

/-- The decoder answers a chunk wherever the tag's whole length is there. -/
theorem exists_decode_ok {tag : Byte} {tl : List Byte} (h : chunkLength tag ≤ tl.length + 1) :
    ∃ i rest, decode (tag :: tl) = .ok (i, rest) ∧ i.kind = tagKind tag := by
  cases hd : decode (tag :: tl) with
  | error e =>
    obtain ⟨hshort, -⟩ := decode_cons_error.1 hd
    omega
  | ok v =>
    obtain ⟨i, rest⟩ := v
    exact ⟨i, rest, rfl, (decode_cons_ok hd).1⟩

/-- Bytes the decoder refuses are a proper part of a chunk: other bytes complete them (R57, R59). -/
theorem exists_chunk_of_short {tag : Byte} {tl : List Byte} (h : tl.length + 1 < chunkLength tag) :
    ∃ i : Instr, i.wf = true ∧ tl.length + 1 < (encode i).length ∧
      tag :: tl = (encode i).take (tl.length + 1) := by
  have hpadded :
      chunkLength tag ≤ (tl ++ List.replicate Config.maxChunkLen (0x00 : Byte)).length + 1 := by
    have hmax := chunkLength_le_max tag
    rw [List.length_append, List.length_replicate]
    omega
  obtain ⟨i, rest, hd, hkind⟩ := exists_decode_ok hpadded
  have hlen : tl.length + 1 < (encode i).length := by rwa [encode_length, hkind]
  refine ⟨i, wf_of_decode_ok hd, hlen, ?_⟩
  calc tag :: tl
      = (tag :: (tl ++ List.replicate Config.maxChunkLen 0x00)).take (tl.length + 1) := by simp
    _ = (encode i ++ rest).take (tl.length + 1) := by rw [encode_of_decode_ok hd]
    _ = (encode i).take (tl.length + 1) := List.take_append_of_le_length hlen.le

/-! ### The opcode table's numbering (R48) -/

@[simp] theorem lowBytes_length (n w : Nat) : (lowBytes n w).length = n := by
  induction n generalizing w with
  | zero => rfl
  | succ n ih => rw [lowBytes, List.length_cons, ih]

@[simp] theorem lowBytes_zero (n : Nat) : lowBytes n 0 = List.replicate n 0x00 := by
  induction n with
  | zero => rfl
  | succ n ih => rw [lowBytes, Nat.zero_div, ih]; rfl

/-- The low bytes of a list's number are the list, and 0x00 above it. -/
theorem lowBytes_leWord {n : Nat} {bytes : List Byte} (h : bytes.length ≤ n) :
    lowBytes n (Spec.leWord bytes) = bytes ++ List.replicate (n - bytes.length) 0x00 := by
  induction bytes generalizing n with
  | nil => exact lowBytes_zero n
  | cons b rest ih =>
    obtain _ | n := n
    · cases h
    have hb := b.isLt
    have hlow : BitVec.ofNat 8 (b.toNat + 256 * Spec.leWord rest) = b :=
      BitVec.eq_of_toNat_eq (by rw [BitVec.toNat_ofNat]; omega)
    have hhigh : (b.toNat + 256 * Spec.leWord rest) / 256 = Spec.leWord rest := by omega
    rw [Spec.leWord, lowBytes, hlow, hhigh, ih (Nat.le_of_succ_le_succ h), List.length_cons,
      Nat.add_sub_add_right, List.cons_append]

theorem leWord_lt (bytes : List Byte) : Spec.leWord bytes < 2 ^ (8 * bytes.length) := by
  induction bytes with
  | nil => exact Nat.one_pos
  | cons b rest ih =>
    have hb := b.isLt
    have hpow : 2 ^ (8 * (b :: rest).length) = 256 * 2 ^ (8 * rest.length) := by
      rw [List.length_cons, Nat.mul_add_one, Nat.pow_add, Nat.mul_comm]
    rw [hpow, Spec.leWord]
    omega

/-- The bytes read from a chunk's number are its encoding, and 0x00 up to the longest chunk. -/
theorem tableBytes_leWord_encode (i : Instr) :
    tableBytes (8 * kindLength i.kind) (Spec.leWord (encode i)) =
      encode i ++ List.replicate (Config.maxChunkLen - kindLength i.kind) 0x00 := by
  have hlt := leWord_lt (encode i)
  rw [encode_length] at hlt
  have hlen : (encode i).length ≤ Config.maxChunkLen := by
    rw [encode_length]; exact kindLength_le_max i.kind
  rw [tableBytes, Nat.mod_eq_of_lt hlt, lowBytes_leWord hlen, encode_length]

/-- What is read of a number is the chunk its bytes decode to, whatever is left over. -/
theorem decodeTableWord_of_decode {nbits w : Nat} {i : Instr} {rest : List Byte}
    (h : decode (tableBytes nbits w) = .ok (i, rest)) : decodeTableWord nbits w = some i := by
  rw [decodeTableWord, h]

/-- Every number is as many bytes as the longest chunk has, so it decodes (R57). -/
theorem exists_decode_tableBytes (nbits w : Nat) :
    ∃ i rest, decode (tableBytes nbits w) = .ok (i, rest) := by
  obtain ⟨i, rest, hd, -⟩ := exists_decode_ok (tag := BitVec.ofNat 8 (w % 2 ^ nbits))
    (tl := lowBytes 4 (w % 2 ^ nbits / 256)) (by rw [lowBytes_length]; exact chunkLength_le_max _)
  exact ⟨i, rest, hd⟩

/-! ### A chunk placed at the cursor (R35) -/

/-- The bytes read from where a run of bytes was placed are those. -/
theorem Memory.bytesFrom_placeBytes {m : Memory} (h : m.wf = true) {addr : Nat}
    (ha : addr ≤ m.size) (bytes : List Byte) :
    (m.placeBytes addr bytes).bytesFrom addr bytes.length = bytes := by
  refine List.ext_getElem? fun j => ?_
  by_cases hj : j < bytes.length
  · rw [Memory.bytesFrom_getElem? hj, Memory.read_placeBytes h addr bytes ha, if_pos (by omega),
      Nat.add_sub_cancel_left]
  · rw [List.getElem?_eq_none (by rw [Memory.bytesFrom_length]; omega),
      List.getElem?_eq_none (by omega)]

/-- A running step at bytes that decode runs exactly the chunk they decode to (R66, R69). -/
theorem step_eq_exec {s : State} {i : Instr} {rest : List Byte} (hp : s.phase = .running)
    (hd : decode (s.data.bytesFrom s.cursor Config.maxChunkLen) = .ok (i, rest)) :
    step s = exec i s := by
  have hne : s.cursor ≠ s.data.size := by
    intro hend
    rw [Memory.bytesFrom_end hend.ge] at hd
    cases hd
  simp only [step, fetchChunk, hp, if_neg hne, hd]

/-! ### A completed chunk in the words of `Spec` (R72) -/

/-- A completed chunk is the pixel its effect leaves, its copies, one store and one advance. -/
theorem finishChunk_effectOf (i : Instr) (s : State) (len : Nat) :
    (effectOf i s).finishChunk len =
      Spec.chunkDone s (effectOf i s).px (Spec.copies i) len := by
  have hcache := finishChunk_effectOf_cache i s len
  have hout := finishChunk_effectOf_out i s len
  have hcopies : List.replicate (Spec.copies i) s.px =
      List.replicate (Spec.copies i) (effectOf i s).px := by cases i <;> rfl
  rw [List.replicate_succ', ← List.append_assoc] at hout
  rw [Spec.chunkDone, hcopies, ← hcache, ← hout]
  cases i <;> rfl

@[simp] theorem addDelta_zero (old : Byte) : addDelta old 0 = old := by
  rw [addDelta, wrap8, Int.add_zero, BitVec.ofInt_natCast, BitVec.ofNat_toNat, BitVec.setWidth_eq]

@[simp] theorem withDeltas_zero (p : Pixel) : withDeltas p 0 0 0 = p := by
  simp [withDeltas]

end Sys2Proof.Machine
end

section
/-!
PROOFS, family 30_encoding.md. The statements, each assembled from the lemmas above.
-/

namespace Sys2Proof.Machine

/-- Settles O3. -/
theorem encodedChunkDecodesToItself : Obligations.EncodedChunkDecodesToItself :=
  fun _ rest h => decode_encode h rest

/-- Settles O4. -/
theorem decodedChunkEncodesToItsBytes : Obligations.DecodedChunkEncodesToItsBytes :=
  fun _ _ _ h => ⟨wf_of_decode_ok h, encode_of_decode_ok h⟩

/-- Settles O5: five bytes are enough for every tag. -/
theorem everyTagIsAWellFormedChunk : Obligations.EveryTagIsAWellFormedChunk := by
  intro tag b1 b2 b3 b4
  obtain ⟨i, rest, hd, hkind⟩ := exists_decode_ok (tl := [b1, b2, b3, b4]) (chunkLength_le_max tag)
  exact ⟨i, rest, hd, wf_of_decode_ok hd, hkind⟩

/-- Settles O6, by induction on the length: the first chunk is whole and what follows it is shorter,
or all the bytes are a part of it. -/
theorem everySpanIsChunksAndAtMostOneCutOff : Obligations.EverySpanIsChunksAndAtMostOneCutOff := by
  intro bytes
  induction hn : bytes.length using Nat.strong_induction_on generalizing bytes with
  | _ n ih =>
  cases bytes with
  | nil => exact ⟨[], nofun, .inl rfl⟩
  | cons tag tl =>
    by_cases hshort : tl.length + 1 < chunkLength tag
    · obtain ⟨i, hwf, hlen, htake⟩ := exists_chunk_of_short hshort
      exact ⟨[], nofun, .inr ⟨i, tl.length + 1, hwf, Nat.succ_pos _, hlen, htake⟩⟩
    · obtain ⟨i, rest, hd, -⟩ := exists_decode_ok (not_lt.1 hshort)
      have hbytes := encode_of_decode_ok hd
      have hrest : rest.length < n := by
        have hpos := kindLength_pos i.kind
        rw [← hn, hbytes, List.length_append, encode_length]
        omega
      obtain ⟨chunks, hwf, hchunks⟩ := ih _ hrest rest rfl
      refine ⟨i :: chunks, List.forall_mem_cons.2 ⟨wf_of_decode_ok hd, hwf⟩, ?_⟩
      obtain hwhole | ⟨c, k, hc, hpos, hlt, hcut⟩ := hchunks
      · exact .inl (by rw [hbytes, hwhole]; rfl)
      · exact .inr ⟨c, k, hc, hpos, hlt, by rw [hbytes, hcut, ← List.append_assoc]; rfl⟩

/-- Settles O8. -/
theorem tableWordDecodes : Obligations.TableWordDecodes := by
  intro i h
  have hd := decode_encode h (List.replicate (Config.maxChunkLen - kindLength i.kind) 0x00)
  rw [← tableBytes_leWord_encode] at hd
  exact decodeTableWord_of_decode hd

/-- Settles O29: the five bytes placed at the cursor are the bytes the fetch reads there. -/
theorem fetchWordIsRunNext : Obligations.FetchWordIsRunNext := by
  intro s nbits w hwf hc
  obtain ⟨i, rest, hd⟩ := exists_decode_tableBytes nbits w
  have hread : (s.data.placeBytes s.cursor (tableBytes nbits w)).bytesFrom s.cursor
      Config.maxChunkLen = tableBytes nbits w := by
    simpa [tableBytes] using Memory.bytesFrom_placeBytes hwf hc (tableBytes nbits w)
  exact ⟨i, decodeTableWord_of_decode hd, step_eq_exec rfl ((congrArg decode hread).trans hd)⟩

/-- Settles O1. -/
theorem tagValuesPartition : Obligations.TagValuesPartition :=
  ⟨tagKind_eq_iff, by decide⟩

/-- Settles O7: the decoder run on each word. -/
theorem wordsOfEachFormatDecode : Obligations.WordsOfEachFormatDecode :=
  ⟨rfl, rfl, rfl, rfl, rfl, rfl, rfl, rfl⟩

/-- Settles O26: each of the three fits and leaves `px` as it was. -/
theorem threeWaysToRepeatThePixel : Obligations.ThreeWaysToRepeatThePixel := by
  refine ⟨rfl, rfl, rfl, fun s hfit => ?_⟩
  have hsame : ∀ i : Instr, kindLength i.kind ≤ 2 → (effectOf i s).px = s.px →
      exec i s = .next (Spec.chunkDone s s.px (Spec.copies i) (kindLength i.kind)) := by
    intro i hlen hpx
    rw [exec_fits (by omega), finishChunk_effectOf, hpx]
  exact ⟨hsame (.diff 0 0 0) (by decide) (withDeltas_zero s.px),
    hsame (.luma 0 0 0) (by decide) (withDeltas_zero s.px), hsame (.run 0) (by decide) rfl⟩

end Sys2Proof.Machine
end

section
/-!
PROOFS, family 40_chunk_cycle.md, layer 1. The tag's length and the transcription `Spec.stepR72` in
the model's operations; a step's next state, from its own condition and in the words of `Spec`; the
bytes of whole chunks at the cursor, and the run over them.
-/

namespace Sys2Proof.Machine

/-! ### Fields, kinds and lengths of `Spec` (R8, R49, R67) -/

/-- Shift and mask take the same field as division and remainder (R8). -/
theorem natCast_bits (v : Byte) (hi lo : Nat) :
    (bits v hi lo : Int) = Spec.fld v lo (hi + 1 - lo) := by
  rw [Spec.fld, Nat.and_two_pow_sub_one_eq_mod, Nat.shiftRight_eq_div_pow, bits]

theorem spec_fld_top (tag : Byte) : Spec.fld tag 6 2 = bits tag 7 6 := (natCast_bits tag 7 6).symm

theorem spec_fld_low (tag : Byte) : Spec.fld tag 0 6 = bits tag 5 0 := (natCast_bits tag 5 0).symm

/-- The classification of the model asks the questions of R72, in its order. -/
theorem tagKind_eq_spec (tag : Byte) :
    tagKind tag =
      if tag = 0xFF then .rgba else if tag = 0xFE then .rgb
      else if Spec.fld tag 6 2 = 0 then .index else if Spec.fld tag 6 2 = 1 then .diff
      else if Spec.fld tag 6 2 = 2 then .luma else .run := by
  rw [spec_fld_top, tagKind]
  norm_cast

theorem spec_length_eq (tag : Byte) : Spec.length tag = chunkLength tag := by
  rw [chunkLength, tagKind_eq_spec, Spec.length]
  split_ifs <;> simp only [kindLength] <;> omega

/-- The top field of LUMA is its range of tags (R56). -/
theorem spec_fld_top_eq_two_iff (tag : Byte) :
    Spec.fld tag 6 2 = 2 ↔ 0x80 ≤ tag.toNat ∧ tag.toNat ≤ 0xBF := by
  have hlt := tag.isLt
  rw [spec_fld_top, bits]
  omega

/-- Only RGBA, RGB and LUMA have operand bytes (R67). -/
theorem tag_of_one_lt_length {tag : Byte} (h : 1 < Spec.length tag) :
    tag = 0xFF ∨ tag = 0xFE ∨ 0x80 ≤ tag.toNat ∧ tag.toNat ≤ 0xBF := by
  rw [Spec.length] at h
  split_ifs at h with hrgba hrgb hluma
  · exact .inl hrgba
  · exact .inr (.inl hrgb)
  · exact .inr (.inr ((spec_fld_top_eq_two_iff tag).1 hluma))
  · omega

/-! ### The pixel and the copies of a chunk (R75, R84, R86) -/

theorem spec_wrap8_eq (v : Int) : Spec.wrap8 v = wrap8 v := by
  apply BitVec.eq_of_toNat_eq
  simp only [Spec.wrap8, wrap8, BitVec.toNat_ofNat, BitVec.toNat_ofInt]
  omega

/-- The effect of a chunk leaves the pixel the rules give it. -/
theorem effectOf_px (i : Instr) (s : State) : (effectOf i s).px = Spec.newPx s.px s.cache i := by
  cases i with
  | rgba | rgb | run => rfl
  | index slot => exact (spec_slot_eq_cacheRead s slot).symm
  | diff dr dg db => simp only [Spec.newPx, spec_wrap8_eq]; rfl
  | luma dg drDg dbDg =>
    simp only [Spec.newPx, spec_wrap8_eq, add_assoc, add_comm dg]
    rfl

theorem copies_eq_zero {i : Instr} (h : i.kind ≠ .run) : Spec.copies i = 0 := by
  cases i with
  | run k => exact absurd rfl h
  | _ => rfl

/-- The extra copies of a decoded chunk: the field of RUN, and none for another kind (R53, R86). -/
theorem copies_of_decode {tag : Byte} {tl rest : List Byte} {i : Instr}
    (h : decode (tag :: tl) = .ok (i, rest)) :
    Spec.copies i = if tagKind tag = .run then bits tag 5 0 else 0 := by
  obtain ⟨hkind, -, -⟩ := decode_cons_ok h
  split
  next hrun =>
    rw [decode, hrun] at h
    cases h
    rfl
  next hrun => exact copies_eq_zero (hkind ▸ hrun)

/-! ### A step from its own condition (R64, R65, R68, R72) -/

/-- The three kinds with operand bytes trap where they do not fit (R68). -/
theorem exec_truncated {i : Instr} {s : State}
    (hkind : i.kind = .rgba ∨ i.kind = .rgb ∨ i.kind = .luma)
    (hlong : s.data.size < s.cursor + kindLength i.kind) : exec i s = .next s.raiseTruncated := by
  cases i with
  | rgba | rgb | luma => exact State.boundsChecked_truncated _ hlong
  | index | diff | run => simp [Instr.kind] at hkind

/-- A step that leaves the decode running completed the chunk its bytes decode to. -/
theorem step_completed {s t : State} (h : step s = .next t) (hrun : t.phase = .running) :
    ∃ tag, s.data.read s.cursor = some tag ∧ s.cursor + chunkLength tag ≤ s.data.size ∧
      ∃ i rest, decode (s.data.bytesFrom s.cursor Config.maxChunkLen) = .ok (i, rest) ∧
        t = (effectOf i s).finishChunk (chunkLength tag) := by
  obtain ⟨-, ⟨-, rfl⟩ | ⟨tag, ht, ⟨-, rfl⟩ | ⟨hfit, i, rest, hd, -, rfl⟩⟩⟩ := step_cases h
  · cases hrun
  · cases hrun
  · exact ⟨tag, ht, hfit, i, rest, hd, rfl⟩

/-- Before the end of the span a step does not end in `DONE` (R65). -/
theorem step_phase_ne_done {s t : State} (h : step s = .next t) (hc : s.cursor < s.data.size) :
    t.phase ≠ .done := by
  obtain ⟨hp, ⟨hend, rfl⟩ | ⟨tag, -, ⟨-, rfl⟩ | ⟨-, i, rest, -, -, rfl⟩⟩⟩ := step_cases h
  · omega
  · exact nofun
  · simp [hp]

section Step

variable {s : State} (hp : s.phase = .running)

include hp

/-- A step at bytes that decode completes their chunk, as the rules give it. -/
theorem step_eq_chunkDone {i : Instr} {rest : List Byte}
    (hd : decode (s.data.bytesFrom s.cursor Config.maxChunkLen) = .ok (i, rest)) :
    step s = .next (Spec.chunkDone s (Spec.newPx s.px s.cache i) (Spec.copies i)
      (kindLength i.kind)) := by
  rw [step_of_decode hp hd, finishChunk_effectOf, effectOf_px]

/-- A running decode has a next step (R64). -/
theorem exists_step_of_running (hc : s.cursor ≤ s.data.size) : ∃ t, step s = .next t := by
  obtain hend | hlt := hc.eq_or_lt
  · exact ⟨_, step_of_end hp hend⟩
  · obtain ⟨tag, ht⟩ := Memory.exists_read hlt
    obtain ⟨hlong, -⟩ | ⟨-, i, rest, hd, -, -⟩ := fetchChunk_at_tag hp ht
    · exact ⟨_, step_of_truncated hp ht hlong⟩
    · exact ⟨_, step_of_decode hp hd⟩

end Step

/-! ### The pseudocode of R72, kind by kind -/

/-- The branch of R72 that executes a chunk of a kind. -/
def pseudocodeBranch (s : State) (tag : Byte) (len : Nat) : Kind → State
  | .rgba =>
    Spec.chunkDone s ⟨Spec.byteAt s 1, Spec.byteAt s 2, Spec.byteAt s 3, Spec.byteAt s 4⟩ 0 len
  | .rgb => Spec.chunkDone s ⟨Spec.byteAt s 1, Spec.byteAt s 2, Spec.byteAt s 3, s.px.a⟩ 0 len
  | .index => Spec.chunkDone s (Spec.slot s.cache tag.toNat) 0 len
  | .diff => Spec.chunkDone s (Spec.diffPixel s.px tag) 0 len
  | .luma => Spec.chunkDone s (Spec.lumaPixel s.px tag (Spec.byteAt s 1)) 0 len
  | .run => Spec.chunkDone s s.px (Spec.fld tag 0 6).toNat len

theorem spec_byteAt_of_read {s : State} {k : Nat} {b : Byte}
    (h : s.data.read (s.cursor + k) = some b) : Spec.byteAt s k = b := by
  rw [Spec.byteAt, h, Option.getD_some]

theorem stepR72_of_end {s : State} (hc : s.cursor = s.data.size) :
    Spec.stepR72 s = s.endDecode := if_pos hc

section Pseudocode

variable {s : State} {tag : Byte} (ht : s.data.read s.cursor = some tag)

include ht

theorem stepR72_of_truncated (hlong : s.data.size < s.cursor + chunkLength tag) :
    Spec.stepR72 s = s.raiseTruncated := by
  have hlt := (Memory.read_eq_some.1 ht).1
  simp only [Spec.stepR72, if_neg hlt.ne, spec_byteAt_of_read (k := 0) ht, spec_length_eq,
    if_pos hlong]
  rfl

/-- Where the chunk fits the pseudocode executes the branch of the tag's kind. -/
theorem stepR72_of_fits (hfit : s.cursor + chunkLength tag ≤ s.data.size) :
    Spec.stepR72 s = pseudocodeBranch s tag (chunkLength tag) (tagKind tag) := by
  have hlt := (Memory.read_eq_some.1 ht).1
  simp only [Spec.stepR72, if_neg hlt.ne, spec_byteAt_of_read (k := 0) ht, spec_length_eq,
    if_neg (not_lt.2 hfit), tagKind_eq_spec tag]
  split_ifs <;> rfl

end Pseudocode

/-- The branch of a kind and the chunk decoded as that kind do the same: each operand of the chunk
is the field or the byte the branch reads. -/
theorem pseudocodeBranch_of_decodeAs {s : State} {tag : Byte} {k : Kind} {rest : List Byte}
    {i : Instr} (len : Nat)
    (hd : decodeAs tag k (s.data.bytesFrom (s.cursor + 1) 4) = .ok (i, rest)) :
    pseudocodeBranch s tag len k =
      Spec.chunkDone s (Spec.newPx s.px s.cache i) (Spec.copies i) len := by
  have hbyte {tl : List Byte} (htl : s.data.bytesFrom (s.cursor + 1) 4 = tl) {j : Nat} {b : Byte}
      (hj : j < 4) (hb : tl[j]? = some b) : Spec.byteAt s (1 + j) = b := by
    rw [← htl, Memory.bytesFrom_getElem? hj, Nat.add_assoc] at hb
    exact spec_byteAt_of_read hb
  generalize htl : s.data.bytesFrom (s.cursor + 1) 4 = tl at hd
  cases k with
  | rgba =>
    rcases tl with _ | ⟨r, _ | ⟨g, _ | ⟨b, _ | ⟨a, tl⟩⟩⟩⟩ <;> cases hd
    rw [pseudocodeBranch, hbyte htl (j := 0) (by decide) rfl, hbyte htl (j := 1) (by decide) rfl,
      hbyte htl (j := 2) (by decide) rfl, hbyte htl (j := 3) (by decide) rfl]
    rfl
  | rgb =>
    rcases tl with _ | ⟨r, _ | ⟨g, _ | ⟨b, tl⟩⟩⟩ <;> cases hd
    rw [pseudocodeBranch, hbyte htl (j := 0) (by decide) rfl, hbyte htl (j := 1) (by decide) rfl,
      hbyte htl (j := 2) (by decide) rfl]
    rfl
  | index =>
    cases hd
    simp [pseudocodeBranch, decodeIndex, Spec.newPx, Spec.copies, Spec.slot, bits]
  | diff =>
    cases hd
    simp [pseudocodeBranch, decodeDiff, Spec.newPx, Spec.copies, Spec.diffPixel, unbias,
      natCast_bits, add_sub_assoc]
  | luma =>
    rcases tl with _ | ⟨nb, tl⟩ <;> cases hd
    rw [pseudocodeBranch, hbyte htl (j := 0) (by decide) rfl]
    simp [decodeLuma, Spec.newPx, Spec.copies, Spec.lumaPixel, unbias, natCast_bits, add_sub_assoc]
  | run =>
    cases hd
    rw [pseudocodeBranch, spec_fld_low]
    rfl

/-! ### The bytes of a chunk at the cursor (R63) -/

/-- These bytes stand at the cursor. -/
def State.BytesAtCursor (s : State) (bytes : List Byte) : Prop :=
  ∀ k b, bytes[k]? = some b → s.data.read (s.cursor + k) = some b

theorem State.BytesAtCursor.left {s : State} {l l' : List Byte} (h : s.BytesAtCursor (l ++ l')) :
    s.BytesAtCursor l := fun k b hb => h k b <| by
  rw [List.getElem?_append_left (List.getElem?_eq_some_iff.1 hb).1, hb]

/-- Past the first bytes stand the others. -/
theorem State.BytesAtCursor.right {s t : State} {l l' : List Byte} (h : s.BytesAtCursor (l ++ l'))
    (hdata : t.data = s.data) (hcursor : t.cursor = s.cursor + l.length) :
    t.BytesAtCursor l' := fun k b hb => by
  rw [hdata, hcursor, Nat.add_assoc]
  exact h _ b <| by
    rw [List.getElem?_append_right (Nat.le_add_right _ _), Nat.add_sub_cancel_left, hb]

/-- A fetch of n bytes begins with the bytes, at most n, that stand there. -/
theorem State.BytesAtCursor.take_bytesFrom {s : State} {l : List Byte} (h : s.BytesAtCursor l)
    {n : Nat} (hn : l.length ≤ n) : (s.data.bytesFrom s.cursor n).take l.length = l := by
  refine List.ext_getElem? fun j => ?_
  rw [List.getElem?_take]
  split
  next hj =>
    rw [Memory.bytesFrom_getElem? (by omega), List.getElem?_eq_getElem hj]
    exact h j _ (List.getElem?_eq_getElem hj)
  next hj => exact (List.getElem?_eq_none (by omega)).symm

/-- The chunk whose encoding stands at the cursor is the one the fetch decodes. -/
theorem State.BytesAtCursor.decode_eq {s : State} {i : Instr} (h : s.BytesAtCursor (encode i))
    (hwf : i.wf = true) :
    ∃ rest, decode (s.data.bytesFrom s.cursor Config.maxChunkLen) = .ok (i, rest) := by
  have hlen : (encode i).length ≤ Config.maxChunkLen := by
    rw [encode_length]; exact kindLength_le_max i.kind
  rw [← List.take_append_drop (encode i).length (s.data.bytesFrom s.cursor Config.maxChunkLen),
    h.take_bytesFrom hlen]
  exact ⟨_, decode_encode hwf _⟩

/-! ### Runs over whole chunks (R72, R73) -/

theorem run_succ {s t : State} {k : Nat} (h : step s = .next t) :
    Sys2Proof.core.run (k + 1) s = Sys2Proof.core.run k t := by
  have hcore : Sys2Proof.core.step s = .next t := h
  simp only [Host.Core.run, hcore]

theorem streamBytes_cons (i : Instr) (rest : List Instr) :
    Spec.streamBytes (i :: rest) = encode i ++ Spec.streamBytes rest := List.flatMap_cons

/-- The state after these chunks, completed one by one. -/
def afterChunks (s : State) : List Instr → State
  | [] => s
  | i :: rest =>
    afterChunks
      (Spec.chunkDone s (Spec.newPx s.px s.cache i) (Spec.copies i) (kindLength i.kind)) rest

section AfterChunks

variable (s : State) (chunks : List Instr)

@[simp] theorem afterChunks_phase : (afterChunks s chunks).phase = s.phase := by
  induction chunks generalizing s with
  | nil => rfl
  | cons i rest ih => exact ih _

@[simp] theorem afterChunks_errKind : (afterChunks s chunks).errKind = s.errKind := by
  induction chunks generalizing s with
  | nil => rfl
  | cons i rest ih => exact ih _

@[simp] theorem afterChunks_data : (afterChunks s chunks).data = s.data := by
  induction chunks generalizing s with
  | nil => rfl
  | cons i rest ih => exact ih _

@[simp] theorem afterChunks_cursor :
    (afterChunks s chunks).cursor = s.cursor + (Spec.streamBytes chunks).length := by
  induction chunks generalizing s with
  | nil => rfl
  | cons i rest ih =>
    rw [afterChunks, ih, streamBytes_cons, List.length_append, encode_length, ← Nat.add_assoc]
    rfl

@[simp] theorem afterChunks_out :
    (afterChunks s chunks).out = s.out ++ Spec.pixels s.px s.cache chunks := by
  induction chunks generalizing s with
  | nil => exact (List.append_nil _).symm
  | cons i rest ih => rw [afterChunks, ih]; simp [Spec.chunkDone, Spec.pixels]

end AfterChunks

/-- Every chunk emits its copies and one more (R75). -/
theorem spec_pixels_length (px : Pixel) (cache : Vector Pixel 64) (chunks : List Instr) :
    (Spec.pixels px cache chunks).length = (chunks.map fun i => Spec.copies i + 1).sum := by
  induction chunks generalizing px cache with
  | nil => rfl
  | cons i rest ih => simp [Spec.pixels, ih, add_assoc, add_comm]

/-- One step per chunk: a running decode at the bytes of whole chunks completes them all. -/
theorem run_afterChunks {s : State} {chunks : List Instr} (hp : s.phase = .running)
    (hwf : ∀ i ∈ chunks, i.wf = true) (hbytes : s.BytesAtCursor (Spec.streamBytes chunks))
    (k : Nat) :
    Sys2Proof.core.run (chunks.length + k) s = Sys2Proof.core.run k (afterChunks s chunks) := by
  induction chunks generalizing s with
  | nil => rw [List.length_nil, Nat.zero_add]; rfl
  | cons i rest ih =>
    obtain ⟨hi, hrest⟩ := List.forall_mem_cons.1 hwf
    rw [streamBytes_cons] at hbytes
    obtain ⟨left, hd⟩ := hbytes.left.decode_eq hi
    rw [List.length_cons, Nat.add_right_comm, run_succ (step_eq_chunkDone hp hd)]
    exact ih hp hrest (hbytes.right rfl (by rw [encode_length]; rfl))

/-- The bytes of a launch stand at its cursor (R101). -/
theorem launch_bytesAtCursor (bytes : List Byte) : (Spec.launch bytes).BytesAtCursor bytes :=
  fun k b hb => by
    rw [Spec.launch, State.resetOn_data, State.resetOn_cursor, Nat.zero_add,
      Memory.read_ofBytes, hb]

end Sys2Proof.Machine
end

section
/-!
PROOFS, family 40_chunk_cycle.md. The statements, each assembled from the lemmas above.
-/

namespace Sys2Proof.Machine

/-- Settles O34: at the end of the span, at a chunk cut off, and at a whole chunk, of each kind. -/
theorem stepIsThePseudocode : Obligations.StepIsThePseudocode := by
  intro s hp hc
  obtain hend | hlt := hc.eq_or_lt
  · rw [step_of_end hp hend, stepR72_of_end hend]
  · obtain ⟨tag, ht⟩ := Memory.exists_read hlt
    obtain ⟨hlong, -⟩ | ⟨hfit, i, rest, hd, hkind, -⟩ := fetchChunk_at_tag hp ht
    · rw [step_of_truncated hp ht hlong, stepR72_of_truncated ht hlong]
    · have hdAs := hd
      rw [bytesFrom_at_tag ht, decode] at hdAs
      rw [step_eq_chunkDone hp hd, stepR72_of_fits ht hfit,
        pseudocodeBranch_of_decodeAs _ hdAs, hkind, chunkLength]

/-- Settles O56, by induction on the bytes left: a step ends the decode or takes at least one. -/
theorem everyDecodeEnds : Obligations.EveryDecodeEnds := by
  intro s hp hc
  induction hn : s.data.size - s.cursor using Nat.strong_induction_on generalizing s with
  | _ n ih =>
  obtain ⟨t, h⟩ := exists_step_of_running hp hc
  by_cases hrun : t.phase = .running
  · obtain ⟨tag, ht, hfit, i, rest, -, rfl⟩ := step_completed h hrun
    have hpos := chunkLength_pos tag
    obtain ⟨k, u, hk, hu, hend⟩ := ih (s.data.size - (s.cursor + chunkLength tag)) (by omega) _ hrun
      (by simpa using hfit) (by simp)
    exact ⟨k + 1, u, by omega, by rw [run_succ h, hu], hend⟩
  · exact ⟨1, t, by omega, run_succ h, hrun⟩

/-- Settles O57: the run over the chunks, and the step that ends the decode. -/
theorem wholeChunksDecodeToTheirPixels : Obligations.WholeChunksDecodeToTheirPixels := by
  intro chunks hwf
  have hend : (afterChunks (Spec.launch (Spec.streamBytes chunks)) chunks).cursor =
      (afterChunks (Spec.launch (Spec.streamBytes chunks)) chunks).data.size := by
    simp [Spec.launch]
  refine ⟨(afterChunks (Spec.launch (Spec.streamBytes chunks)) chunks).endDecode, ?run, ?observe,
    ?count⟩
  case run =>
    rw [run_afterChunks rfl hwf (launch_bytesAtCursor _)]
    exact run_succ (step_of_end (afterChunks_phase _ _) hend)
  case observe =>
    simp [State.observe, Spec.launch, State.resetPixel, State.reset]
  case count =>
    rw [State.endDecode_out, afterChunks_out, ← spec_pixels_length]
    rfl

/-- Settles O28: the bytes at the cursor decode to the chunk, so it is run and it fits. -/
theorem stepRunsEncodedChunk : Obligations.StepRunsEncodedChunk := by
  intro s i hp hwf hbytes
  obtain ⟨rest, hd⟩ := State.BytesAtCursor.decode_eq hbytes hwf
  exact ⟨step_eq_exec hp hd, _, step_of_decode hp hd, by simpa using hp, by simp⟩

/-- Settles O30. -/
theorem stepExistsExactlyWhileRunning : Obligations.StepExistsExactlyWhileRunning :=
  fun _ hc => ⟨fun ⟨_, h⟩ => (step_cases h).1, fun hp => exists_step_of_running hp hc⟩

/-- Settles O31. -/
theorem endOfSpanEndsDecode : Obligations.EndOfSpanEndsDecode := by
  refine ⟨fun s hp hc => step_of_end hp hc, fun s hp hc => ?_, step_of_end rfl rfl⟩
  obtain ⟨t, h⟩ := exists_step_of_running hp hc.le
  exact ⟨t, h, step_phase_ne_done h hc⟩

/-- Settles O32. -/
theorem truncatedChunkRaisesError : Obligations.TruncatedChunkRaisesError :=
  fun _ tag hp ht hlong => step_of_truncated hp ht (spec_length_eq tag ▸ hlong)

/-- Settles O33: a chunk that is cut off has more than the tag byte, which is in the span. -/
theorem onlyTruncationIsAnError : Obligations.OnlyTruncationIsAnError := by
  intro s t h herr
  obtain ⟨hp, ⟨-, rfl⟩ | ⟨tag, ht, ⟨hlong, rfl⟩ | ⟨-, i, rest, -, -, rfl⟩⟩⟩ := step_cases h
  · cases herr
  · rw [← spec_length_eq] at hlong
    have hin := (Memory.read_eq_some.1 ht).1
    exact ⟨rfl, tag, ht, hlong, tag_of_one_lt_length (by omega)⟩
  · simp [hp] at herr

/-- Settles O41. -/
theorem cursorAdvancesByLength : Obligations.CursorAdvancesByLength := by
  intro s t h hrun
  obtain ⟨tag, ht, hfit, i, rest, -, rfl⟩ := step_completed h hrun
  exact ⟨tag, ht, by simp [spec_length_eq], by simpa using hfit⟩

/-- Settles O42: the number of copies is the decoded field's, read off the tag. -/
theorem chunkEmitsCopiesOfItsPixel : Obligations.ChunkEmitsCopiesOfItsPixel := by
  intro s t h hrun
  obtain ⟨tag, ht, -, i, rest, hd, rfl⟩ := step_completed h hrun
  have hmax : Spec.copies i ≤ 61 := copies_le_of_wf (wf_of_decode_ok hd)
  rw [bytesFrom_at_tag ht] at hd
  obtain ⟨-, -, -, hrange, -, -⟩ := tagKind_eq_iff tag
  refine ⟨tag, Spec.copies i + 1, ht, ?_, by omega, by omega, ?_⟩
  · rw [copies_of_decode hd, spec_fld_low, Int.toNat_natCast]
    simp only [hrange]
    split <;> rfl
  · simpa using finishChunk_effectOf_out i s (chunkLength tag)

/-- Settles O2. -/
theorem tagGivesLength : Obligations.TagGivesLength := by
  intro tag
  simp only [← spec_length_eq, Spec.length, spec_fld_top_eq_two_iff]

/-- Settles O22. -/
theorem multiByteChunksTrapWhereTheyDoNotFit :
    Obligations.MultiByteChunksTrapWhereTheyDoNotFit := by
  rintro i s (⟨hkind, hlong⟩ | ⟨hkind, hlong⟩ | ⟨hkind, hlong⟩)
  · exact exec_truncated (.inl hkind) (hkind ▸ hlong)
  · exact exec_truncated (.inr (.inl hkind)) (hkind ▸ hlong)
  · exact exec_truncated (.inr (.inr hkind)) (hkind ▸ hlong)

/-- Settles O27. -/
theorem stepRunsDecodedChunk : Obligations.StepRunsDecodedChunk :=
  fun _ _ _ hp _ hd => step_eq_exec hp hd

end Sys2Proof.Machine
end

section
/-!
PROOFS, family 41_literals.md, layer 1. A chunk that fits and a step at a chunk's bytes, in the words
of `Spec`; the bytes at the cursor, one read after another.
-/

namespace Sys2Proof.Machine

/-- A chunk that fits completes, as the rules give it (R72). -/
theorem exec_eq_chunkDone {i : Instr} {s : State}
    (h : s.cursor + kindLength i.kind ≤ s.data.size) :
    exec i s = .next (Spec.chunkDone s (Spec.newPx s.px s.cache i) (Spec.copies i)
      (kindLength i.kind)) := by
  rw [exec_fits h, finishChunk_effectOf, effectOf_px]

theorem State.bytesAtCursor_nil (s : State) : s.BytesAtCursor [] := fun _ _ hb => nomatch hb

/-- The bytes at the cursor go on with the byte read right after them. -/
theorem State.BytesAtCursor.snoc {s : State} {l : List Byte} {b : Byte} (h : s.BytesAtCursor l)
    (hb : s.data.read (s.cursor + l.length) = some b) : s.BytesAtCursor (l ++ [b]) := by
  intro k b' hb'
  obtain hk | rfl | hk := lt_trichotomy k l.length
  · exact h k b' (by rwa [List.getElem?_append_left hk] at hb')
  · rwa [List.getElem?_concat_length, ← hb] at hb'
  · rw [List.getElem?_eq_none (by simpa using hk)] at hb'
    cases hb'

/-- A running step at the bytes of a well-formed chunk completes it, as the rules give it. -/
theorem State.BytesAtCursor.step_eq_chunkDone {s : State} {i : Instr}
    (h : s.BytesAtCursor (encode i)) (hwf : i.wf = true) (hp : s.phase = .running) :
    step s = .next (Spec.chunkDone s (Spec.newPx s.px s.cache i) (Spec.copies i)
      (kindLength i.kind)) := by
  obtain ⟨rest, hd⟩ := h.decode_eq hwf
  exact Machine.step_eq_chunkDone hp hd

end Sys2Proof.Machine
end

section
/-!
PROOFS, family 41_literals.md. The statements, each assembled from the lemmas above.
-/

namespace Sys2Proof.Machine

/-- Settles O35: the tag alone gives the length that is missing; with the four operand bytes the
encoding of RGBA stands at the cursor. -/
theorem rgbaStep : Obligations.RgbaStep := by
  refine fun s hp ht => ⟨fun hlong => step_of_truncated hp ht hlong, fun r g b a hr hg hb ha => ?_⟩
  have hbytes : s.BytesAtCursor (encode (.rgba r g b a)) :=
    (((((State.bytesAtCursor_nil s).snoc ht).snoc hr).snoc hg).snoc hb).snoc ha
  exact hbytes.step_eq_chunkDone rfl hp

/-- Settles O36: as for RGBA, with three operand bytes; alpha is the old one's. -/
theorem rgbStep : Obligations.RgbStep := by
  refine fun s hp ht => ⟨fun hlong => step_of_truncated hp ht hlong, fun r g b hr hg hb => ?_⟩
  have hbytes : s.BytesAtCursor (encode (.rgb r g b)) :=
    ((((State.bytesAtCursor_nil s).snoc ht).snoc hr).snoc hg).snoc hb
  exact hbytes.step_eq_chunkDone rfl hp

/-- Settles O16. -/
theorem rgbaCompletes : Obligations.RgbaCompletes :=
  fun r g b a _ h => exec_eq_chunkDone (i := .rgba r g b a) h

/-- Settles O17. -/
theorem rgbCompletes : Obligations.RgbCompletes :=
  fun r g b _ h => exec_eq_chunkDone (i := .rgb r g b) h

end Sys2Proof.Machine
end

section
/-!
PROOFS, family 42_index.md, layer 1. The fields of an INDEX tag and the chunk it spells; a slot
looked up at the pixel's own hash; the slots of reset.
-/

namespace Sys2Proof.Machine

/-! ### The tag of INDEX (R50, R56) -/

theorem spec_fld_top_eq_zero_iff (tag : Byte) : Spec.fld tag 6 2 = 0 ↔ tag.toNat < 64 := by
  have hlt := tag.isLt
  rw [spec_fld_top, bits]
  omega

/-- Below 64 the tag byte is its own low field. -/
theorem spec_fld_low_of_lt {tag : Byte} (h : tag.toNat < 64) :
    (Spec.fld tag 0 6).toNat = tag.toNat := by
  rw [spec_fld_low, bits]
  omega

/-- A tag with top bits 00 is a whole chunk: INDEX needs no byte after it (R81). -/
theorem decode_index_tag {tag : Byte} (h : Spec.fld tag 6 2 = 0) (tl : List Byte) :
    decode (tag :: tl) = .ok (decodeIndex tag, tl) := by
  have hkind : tagKind tag = .index := by
    obtain ⟨hindex, -⟩ := tagKind_eq_iff tag
    exact hindex.2 (Nat.le_of_lt_succ ((spec_fld_top_eq_zero_iff tag).1 h))
  rw [decode, hkind, decodeAs]

/-- INDEX leaves the slot its low field numbers, which is in range as it is (R81). -/
theorem newPx_decodeIndex (px : Pixel) (cache : Vector Pixel 64) (tag : Byte) :
    Spec.newPx px cache (decodeIndex tag) = Spec.slot cache (Spec.fld tag 0 6).toNat := by
  have hlt : bits tag 5 0 < 2 ^ 6 := bits_lt tag 5 0
  rw [decodeIndex, Spec.newPx, BitVec.toNat_ofNat, Nat.mod_eq_of_lt hlt, spec_fld_low,
    Int.toNat_natCast]

/-! ### A pixel that its own slot holds (R20, R70) -/

/-- Storing what the slot already holds changes nothing. -/
theorem spec_store_of_slot_eq {cache : Vector Pixel 64} {p : Pixel}
    (h : Spec.slot cache (Spec.hash p) = p) : Spec.store cache p = cache := by
  have hself : cache[Spec.hash p]'(Spec.hash_lt p) = p := by
    simpa only [Spec.slot, Nat.mod_eq_of_lt (Spec.hash_lt p)] using h
  calc Spec.store cache p
      = cache.set (Spec.hash p) (cache[Spec.hash p]'(Spec.hash_lt p)) (Spec.hash_lt p) := by
        rw [hself, Spec.store]
    _ = cache := Vector.set_getElem_self _

/-- A one-pixel chunk whose pixel its slot already holds leaves the whole cache. -/
theorem chunkDone_of_slot_eq {s : State} {p : Pixel} (h : Spec.slot s.cache (Spec.hash p) = p)
    (len : Nat) :
    Spec.chunkDone s p 0 len =
      { s with px := p, out := s.out ++ [p], cursor := s.cursor + len } := by
  rw [Spec.chunkDone, spec_store_of_slot_eq h, List.replicate_zero, List.append_nil]

/-- Every slot of reset is zero (R29). -/
theorem spec_slot_launch (bytes : List Byte) (i : Nat) :
    Spec.slot (Spec.launch bytes).cache i = State.zeroPixel := by
  simp [Spec.slot, Spec.launch]

end Sys2Proof.Machine
end

section
/-!
PROOFS, family 42_index.md. The statements, each assembled from the lemmas above.
-/

namespace Sys2Proof.Machine

/-- Settles O37: the tag alone decodes, so the chunk always fits and its slot number is in range. -/
theorem indexStep : Obligations.IndexStep := by
  intro s tag hp ht htop
  have hd := decode_index_tag htop (s.data.bytesFrom (s.cursor + 1) 4)
  rw [← bytesFrom_at_tag ht] at hd
  rw [step_eq_chunkDone hp hd, newPx_decodeIndex]
  rfl

/-- Settles O48: after a completed chunk the slot of `px` holds `px`, so INDEX of it reads `px` and
stores it where it stands already. -/
theorem lookupOfOwnSlotRepeatsPixel : Obligations.LookupOfOwnSlotRepeatsPixel := by
  intro s t tag h hrun ht htag
  obtain ⟨hstored, -, -⟩ := cacheInvariant
  have hslot : Spec.slot t.cache (Spec.hash t.px) = t.px := hstored s t h hrun
  have hlt : tag.toNat < 64 := htag ▸ Spec.hash_lt t.px
  rw [indexStep t tag hrun ht ((spec_fld_top_eq_zero_iff tag).2 hlt), spec_fld_low_of_lt hlt, htag,
    hslot, chunkDone_of_slot_eq hslot]

/-- Settles O18: INDEX is the one effect and the chunk's end, with no check before them. -/
theorem indexCompletes : Obligations.IndexCompletes := by
  intro i s
  calc exec (.index i) s
      = .next ((effectOf (.index i) s).finishChunk 1) := rfl
    _ = .next (Spec.chunkDone s (Spec.slot s.cache i.toNat) 0 1) := by
        rw [finishChunk_effectOf, effectOf_px]; rfl

/-- Settles O49: slot 53 holds the zero pixel of reset, whose own slot, 0, holds it too. -/
theorem firstLookupOfSlotFiftyThree : Obligations.FirstLookupOfSlotFiftyThree := by
  intro rest
  have hread : (Spec.launch (0x35 :: rest)).data.read 0 = some 0x35 := Memory.read_ofBytes _ 0
  have hstep := indexStep (Spec.launch (0x35 :: rest)) 0x35 rfl hread (by decide)
  rw [spec_slot_launch, chunkDone_of_slot_eq (spec_slot_launch _ _)] at hstep
  exact ⟨_, hstep, rfl, rfl, rfl, rfl⟩

end Sys2Proof.Machine
end

section
/-!
PROOFS, family 43_delta.md, layer 1. The channel sum, reduced at once or in a wider word; the kinds
the top bits 01 and 10 spell; a one-byte chunk, which checks no bounds; a step in the words of the
pseudocode's branch.
-/

namespace Sys2Proof.Machine

/-! ### The channel sum (R9, R84) -/

theorem addDelta_toNat (old : Byte) (delta : Int) :
    ((addDelta old delta).toNat : Int) = ((old.toNat : Int) + delta) % 256 := by
  rw [addDelta, wrap8, BitVec.toNat_ofInt]
  omega

/-- An integer reduced to a word is the low bits of the integer reduced to a wider one. -/
theorem setWidth_ofInt {v w : Nat} (h : v ≤ w) (x : Int) :
    (BitVec.ofInt w x).setWidth v = BitVec.ofInt v x := by
  apply BitVec.eq_of_toInt_eq
  rw [← BitVec.signExtend_eq_setWidth_of_le _ h, BitVec.toInt_signExtend_eq_toInt_bmod_of_le _ h,
    BitVec.toInt_ofInt, BitVec.toInt_ofInt, Int.bmod_bmod_of_dvd (Nat.pow_dvd_pow 2 h)]

/-! ### The tags of DIFF and LUMA (R49, R56) -/

/-- The top field of DIFF is its range of tags. -/
theorem spec_fld_top_eq_one_iff (tag : Byte) :
    Spec.fld tag 6 2 = 1 ↔ 0x40 ≤ tag.toNat ∧ tag.toNat ≤ 0x7F := by
  have hlt := tag.isLt
  rw [spec_fld_top, bits]
  omega

theorem tagKind_eq_diff_iff (tag : Byte) : tagKind tag = .diff ↔ Spec.fld tag 6 2 = 1 := by
  obtain ⟨-, hdiff, -⟩ := tagKind_eq_iff tag
  rw [hdiff, spec_fld_top_eq_one_iff]

theorem tagKind_eq_luma_iff (tag : Byte) : tagKind tag = .luma ↔ Spec.fld tag 6 2 = 2 := by
  obtain ⟨-, -, hluma, -⟩ := tagKind_eq_iff tag
  rw [hluma, spec_fld_top_eq_two_iff]

/-! ### A chunk and a step from its kind (R68, R72) -/

/-- A chunk of one byte has no bounds to check, so it completes in every state. -/
theorem exec_eq_chunkDone_of_one_byte {i : Instr} (h : kindLength i.kind = 1) (s : State) :
    exec i s = .next (Spec.chunkDone s (Spec.newPx s.px s.cache i) (Spec.copies i) 1) := by
  have hexec : exec i s = .next ((effectOf i s).finishChunk 1) := by
    cases i with
    | index | diff | run => rfl
    | rgba | rgb | luma => cases h
  rw [hexec, finishChunk_effectOf, effectOf_px]

/-- A running step at a tag whose chunk fits is the pseudocode's branch for the tag's kind. -/
theorem step_eq_pseudocodeBranch {s : State} {tag : Byte} {k : Kind} (hp : s.phase = .running)
    (ht : s.data.read s.cursor = some tag) (hk : tagKind tag = k)
    (hfit : s.cursor + kindLength k ≤ s.data.size) :
    step s = .next (pseudocodeBranch s tag (kindLength k) k) := by
  subst hk
  have hc := (Memory.read_eq_some.1 ht).1
  rw [stepIsThePseudocode s hp hc.le, stepR72_of_fits ht hfit, chunkLength]

end Sys2Proof.Machine
end

section
/-!
PROOFS, family 43_delta.md. The statements, each assembled from the lemmas above.
-/

namespace Sys2Proof.Machine

/-- Settles O10: a sum of words is the word of the integer sum, and reducing mod 2^w first does not
change the low 8 bits. -/
theorem channelSumIsSameInEveryWidth : Obligations.ChannelSumIsSameInEveryWidth := by
  refine fun old delta => ⟨addDelta_toNat old delta, fun w hw => ?_⟩
  calc addDelta old delta
      = (BitVec.ofInt w ((old.toNat : Int) + delta)).setWidth 8 := (setWidth_ofInt hw _).symm
    _ = (BitVec.ofNat w old.toNat + BitVec.ofInt w delta).setWidth 8 := by
        rw [BitVec.ofInt_add, BitVec.ofInt_natCast]

/-- Settles O38: the tag is the whole chunk, so it fits wherever the tag is read. -/
theorem diffStep : Obligations.DiffStep := fun _ tag hp ht htop =>
  step_eq_pseudocodeBranch hp ht ((tagKind_eq_diff_iff tag).2 htop) (Memory.read_eq_some.1 ht).1

/-- Settles O39: the chunk fits exactly when there is a second byte. -/
theorem lumaStep : Obligations.LumaStep := by
  intro s tag hp ht htop
  have hk : tagKind tag = .luma := (tagKind_eq_luma_iff tag).2 htop
  refine ⟨fun hlong => ?truncated, fun nb hnb => ?completed⟩
  case truncated => exact step_of_truncated hp ht (by rw [chunkLength, hk]; exact hlong)
  case completed =>
    rw [step_eq_pseudocodeBranch hp ht hk (Memory.read_eq_some.1 hnb).1, pseudocodeBranch,
      spec_byteAt_of_read hnb]
    rfl

/-- Settles O11: each lane is the channel sum of its own value and delta. -/
theorem deltaLanesAreSeparate : Obligations.DeltaLanesAreSeparate :=
  fun _ _ _ _ _ _ _ _ =>
    ⟨congrArg₂ addDelta, congrArg₂ addDelta, congrArg₂ addDelta, rfl⟩

/-- Settles O19: DIFF is one byte long. -/
theorem diffCompletes : Obligations.DiffCompletes :=
  fun dr dg db s => exec_eq_chunkDone_of_one_byte (i := .diff dr dg db) rfl s

/-- Settles O20. -/
theorem lumaCompletes : Obligations.LumaCompletes :=
  fun dg drDg dbDg _ h => exec_eq_chunkDone (i := .luma dg drDg dbDg) h

end Sys2Proof.Machine
end

section
/-!
PROOFS, family 44_run.md, layer 1. The kind the top bits 11 spell.
-/

namespace Sys2Proof.Machine

/-- The top bits 11 are left to RUN where the two exact values, which are asked for first, are not
the tag (R49). -/
theorem tagKind_eq_run {tag : Byte} (htop : Spec.fld tag 6 2 = 3) (hrgb : tag ≠ 0xFE)
    (hrgba : tag ≠ 0xFF) : tagKind tag = .run := by
  rw [tagKind_eq_spec, if_neg hrgba, if_neg hrgb, htop]
  rfl

end Sys2Proof.Machine
end

section
/-!
PROOFS, family 44_run.md. The statements, each assembled from the lemmas above.
-/

namespace Sys2Proof.Machine

/-- Settles O40: the tag is the whole chunk, so it fits wherever the tag is read. -/
theorem runStep : Obligations.RunStep := fun _ _ hp ht htop hrgb hrgba =>
  step_eq_pseudocodeBranch hp ht (tagKind_eq_run htop hrgb hrgba) (Memory.read_eq_some.1 ht).1

/-- Settles O21: RUN is one byte long, and its new pixel is the old one. -/
theorem runCompletes : Obligations.RunCompletes :=
  fun k s => exec_eq_chunkDone_of_one_byte (i := .run k) rfl s

end Sys2Proof.Machine
end

section
/-!
PROOFS, family 60_exceptions.md, layer 1. The tag of a chunk that is cut off, the step
there, and the run that ends there.
-/

namespace Sys2Proof.Machine

/-- Where a non-empty part of a chunk's encoding stands at the cursor, its tag is read there. -/
theorem State.BytesAtCursor.exists_tag {s : State} {i : Instr} {n : Nat}
    (h : s.BytesAtCursor ((encode i).take n)) (hwf : i.wf = true) (hn : 0 < n) :
    ∃ tag, s.data.read s.cursor = some tag ∧ tagKind tag = i.kind := by
  obtain ⟨tag, tl, henc, hkind, -⟩ := encode_tagged i hwf
  refine ⟨tag, h 0 tag ?_, hkind⟩
  rw [List.getElem?_take_of_lt hn, henc, List.getElem?_cons_zero]

/-- A running step at a chunk that the end of the span cuts off takes the error (R93). -/
theorem State.BytesAtCursor.step_eq_raiseTruncated {s : State} {i : Instr} {n : Nat}
    (h : s.BytesAtCursor ((encode i).take n)) (hwf : i.wf = true) (hn : 0 < n)
    (hp : s.phase = .running) (hlong : s.data.size < s.cursor + (encode i).length) :
    step s = .next s.raiseTruncated := by
  obtain ⟨tag, ht, hkind⟩ := h.exists_tag hwf hn
  refine step_of_truncated hp ht ?_
  rwa [chunkLength, hkind, ← encode_length]

/-- One step per whole chunk and one more: a running decode whose span ends inside the next chunk
takes the error at that chunk's tag. -/
theorem run_cutOff {s : State} {chunks : List Instr} {i : Instr} {n : Nat}
    (hp : s.phase = .running) (hwf : ∀ j ∈ chunks, j.wf = true) (hi : i.wf = true) (hn : 0 < n)
    (hbytes : s.BytesAtCursor (Spec.streamBytes chunks ++ (encode i).take n))
    (hlong : s.data.size < s.cursor + (Spec.streamBytes chunks).length + (encode i).length) :
    Sys2Proof.core.run (chunks.length + 1) s = .next (afterChunks s chunks).raiseTruncated := by
  have hcut : (afterChunks s chunks).BytesAtCursor ((encode i).take n) :=
    hbytes.right (afterChunks_data s chunks) (afterChunks_cursor s chunks)
  rw [run_afterChunks hp hwf hbytes.left]
  refine run_succ (hcut.step_eq_raiseTruncated hi hn (by rwa [afterChunks_phase]) ?_)
  rwa [afterChunks_data, afterChunks_cursor]

end Sys2Proof.Machine
end

section
/-!
PROOFS, family 60_exceptions.md. The statement, assembled from the lemmas above.
-/

namespace Sys2Proof.Machine

/-- Settles O58: the run from the launch, and what can be observed of the state it ends in. -/
theorem cutOffChunkEndsInError : Obligations.CutOffChunkEndsInError := by
  intro chunks i n hwf hi hn hshort
  refine ⟨_, run_cutOff rfl hwf hi hn (launch_bytesAtCursor _) ?long, ?observe⟩
  case long => simpa [Spec.launch] using hshort
  case observe => simp [State.observe, Spec.launch, State.resetPixel, State.reset]

end Sys2Proof.Machine
end

section
/-!
PROOFS, family 70_reset_and_hazards.md, layer 1. The pixel emitted last; a chunk that copies `px`; the
slot an INDEX tag numbers; the last pixel of a slot in the words of `Spec`.
-/

namespace Sys2Proof.Machine

/-! ### What a completed chunk leaves for a RUN after it (R86, R107) -/

/-- The pixel a completed chunk leaves is the one it emits last (R70). -/
theorem getLast?_out_of_completed {s t : State} (h : step s = .next t) (hrun : t.phase = .running) :
    t.out.getLast? = some t.px := by
  obtain ⟨tag, -, -, i, rest, -, rfl⟩ := step_completed h hrun
  simp

/-- Copies of `px` and then `px` itself are one copy more (R86). -/
theorem chunkDone_px_out (s : State) (copies len : Nat) :
    (Spec.chunkDone s s.px copies len).out = s.out ++ List.replicate (copies + 1) s.px := by
  rw [Spec.chunkDone, List.append_assoc, List.replicate_succ']

/-! ### The slot a lookup reads (R50, R108) -/

/-- The low field of a tag is the number of a slot. -/
theorem exists_cacheIndex_eq_spec_fld_low (tag : Byte) :
    ∃ j : CacheIndex, (Spec.fld tag 0 6).toNat = j.toNat := by
  have hlt : bits tag 5 0 < 2 ^ 6 := bits_lt tag 5 0
  refine ⟨BitVec.ofNat 6 (bits tag 5 0), ?_⟩
  rw [spec_fld_low, Int.toNat_natCast, BitVec.toNat_ofNat, Nat.mod_eq_of_lt hlt]

/-- The hash of R18 and the model's select the same pixels. -/
theorem lastWithHash_eq_spec (j : CacheIndex) (l : List Pixel) :
    lastWithHash j l =
      ((l.filter fun p => Spec.hash p = j.toNat).getLast?).getD ⟨0, 0, 0, 0⟩ := by
  simp only [spec_hash_eq, BitVec.toNat_inj]
  rfl

end Sys2Proof.Machine
end

section
/-!
PROOFS, family 70_reset_and_hazards.md. The statements, each assembled from the lemmas above.
-/

namespace Sys2Proof.Machine

/-- Settles O47: RUN copies the `px` it finds, which the chunk before it emitted last, and its one
store finds that pixel in its slot already. -/
theorem runAfterChunkRepeatsItsPixel : Obligations.RunAfterChunkRepeatsItsPixel := by
  intro s t tag h hrun ht hlo hhi
  obtain ⟨hstored, -, -⟩ := cacheInvariant
  have hslot : Spec.slot t.cache (Spec.hash t.px) = t.px := hstored s t h hrun
  obtain ⟨-, -, -, hrange, -, -⟩ := tagKind_eq_iff tag
  have hstep : step t = .next (Spec.chunkDone t t.px (Spec.fld tag 0 6).toNat 1) :=
    step_eq_pseudocodeBranch hrun ht (hrange.2 ⟨hlo, hhi⟩) (Memory.read_eq_some.1 ht).1
  exact ⟨_, (Spec.fld tag 0 6).toNat + 1, hstep, rfl, spec_store_of_slot_eq hslot,
    Nat.succ_pos _, chunkDone_px_out t _ 1, getLast?_out_of_completed h hrun⟩

/-- Settles O54: the lookup reads its slot, and the invariant says which pixel the slot holds. -/
theorem lookupReturnsLastCollidingPixel : Obligations.LookupReturnsLastCollidingPixel := by
  rintro s tag ⟨-, -, -, hcache, -, -⟩ hp ht htop
  obtain ⟨j, hj⟩ := exists_cacheIndex_eq_spec_fld_low tag
  refine ⟨_, indexStep s tag hp ht htop, ?_⟩
  calc Spec.slot s.cache (Spec.fld tag 0 6).toNat
      = s.cacheRead j := by rw [hj, spec_slot_eq_cacheRead]
    _ = lastWithHash j s.out := hcache j
    _ = _ := by rw [hj, lastWithHash_eq_spec]

end Sys2Proof.Machine
end
